-- ==== Sys2Proof/Word.lean ====
section
/-! DEFINITION. The word types of the hardware: bytes, 16-bit values, command words, event symbols (spec 00_scope.md R11, R12). -/

namespace Sys2Proof

/-- A byte, 8 bits, a value in 0..255 (00_scope.md R11). -/
abbrev Byte := BitVec 8

/-- A 16-bit value: a payload item, a length field, a checksum, the CRC register (00_scope.md R14, 10_state.md R18). -/
abbrev Half := BitVec 16

/-- A command word on `cmd[11:0]` (30_encoding.md R52). -/
abbrev CmdWord := BitVec 12

/-- An event symbol on `evt[9:0]` (30_encoding.md R58). -/
abbrev Symbol := BitVec 10

/-- The status register `STATUS` (10_state.md R19, 30_encoding.md R63). -/
abbrev Status := BitVec 8

end Sys2Proof
end

