-- ==== Sys2Proof/Config.lean ====
section
/-! DEFINITION. The two build-time parameters of the hardware, `CAP` and `MAX_ITEMS` (spec 00_scope.md R8, R9; 70_reset_and_hazards.md R155). -/

namespace Sys2Proof

/-- Parameter `CAP`: "either a natural number with `CAP` ≥ 6 or the symbol `UNBOUNDED`" (00_scope.md R8). -/
inductive Capacity where
  /-- a buffer of at most `n` bytes -/
  | bounded (n : Nat)
  /-- the reference behaviour, no cap -/
  | unbounded
  deriving DecidableEq, Repr

/-- The configuration, "fixed for the life of the hardware" (10_state.md R15). -/
structure Params where
  /-- `CAP` (00_scope.md R8) -/
  cap : Capacity
  /-- `MAX_ITEMS`, "a natural number in 0..65535" (00_scope.md R9) -/
  maxItems : Fin 65536
  deriving DecidableEq, Repr

/-- `CAP` = 131076, the value R8 recommends, and `MAX_ITEMS` = 65535, the default of R9.
DESIGN CHOICE (log 2): State.reset is the machine built with these. -/
def Params.recommended : Params := { cap := .bounded 131076, maxItems := 65535 }

/-- A buffer of `n` bytes is within the capacity: `|BUF|` ≤ `CAP`, no bound when `CAP` = `UNBOUNDED` (10_state.md R15). -/
def Capacity.admits : Capacity → Nat → Bool
  | .bounded c, n => decide (n ≤ c)
  | .unbounded, _ => true

end Sys2Proof
end

