-- ==== Sys2Proof/Syntax.lean ====
section
/-! DEFINITION. The command set `SPCMD-1` (spec 30_encoding.md R53), one constructor per row of opcode_table.json, and the pseudo-commands of R66. -/

namespace Sys2Proof

/-- The six commands of 30_encoding.md R53. -/
inductive Instr where
  /-- NOP: the idle word (43_control.md R123) -/
  | nop
  /-- FEED d: one stream byte (42_reassembler.md R109) -/
  | feed (d : Byte)
  /-- FINISH: end of stream (42_reassembler.md R110) -/
  | finish
  /-- RESET: a fresh instance for a new stream (43_control.md R124) -/
  | reset
  /-- CRC_INIT: start of a checksum (40_crc_engine.md R77) -/
  | crcInit
  /-- CRC_BYTE d: one byte of a checksum (40_crc_engine.md R78) -/
  | crcByte (d : Byte)
  deriving DecidableEq, Repr

/-- The pseudo-commands of 30_encoding.md R66, each standing for a sequence of commands. -/
inductive Pseudo where
  /-- FEEDCHUNK b0 .. b(n-1) -/
  | feedChunk (bytes : List Byte)
  /-- CRC_COMPUTE b0 .. b(n-1) -/
  | crcCompute (bytes : List Byte)
  /-- SENDFRAME p0 .. p(L-1) -/
  | sendFrame (items : List Half)
  /-- NEW -/
  | new
  deriving DecidableEq, Repr

end Sys2Proof
end

