-- ==== Sys2Proof/WellFormed.lean ====
section
/-! DEFINITION. Which instructions, pseudo-commands and configurations are well formed (spec 30_encoding.md R54, 41_frame_codec.md R83, 70_reset_and_hazards.md R155). -/

namespace Sys2Proof

/-- A command is well formed when its operand is a byte; the operand's type says so, "every d in 0..255 is valid"
(40_crc_engine.md R78, 42_reassembler.md R109 corner case c), so no command of R53 is refused here. -/
def Instr.wf : Instr → Bool
  | .nop => true
  | .feed d => decide (d.toNat < 256)
  | .finish => true
  | .reset => true
  | .crcInit => true
  | .crcByte d => decide (d.toNat < 256)

/-- SENDFRAME is defined only for payloads `Encode` is defined for, at most 65535 items (41_frame_codec.md R83). -/
def Pseudo.wf : Pseudo → Bool
  | .feedChunk _ => true
  | .crcCompute _ => true
  | .sendFrame items => decide (items.length ≤ 65535)
  | .new => true

/-- `CAP` ≥ 6 or `UNBOUNDED` (70_reset_and_hazards.md R155; the range of `MAX_ITEMS` is its type). -/
def Params.wf (p : Params) : Bool :=
  match p.cap with
  | .bounded c => decide (6 ≤ c)
  | .unbounded => true

/-- The recommendation of 70_reset_and_hazards.md R155: 4 + 2·`MAX_ITEMS` + 2 ≤ `CAP`, so that every admitted frame
can complete. Not required: the rules are total without it. -/
def Params.admitsEveryFrame (p : Params) : Bool := p.cap.admits (4 + 2 * p.maxItems.val + 2)

end Sys2Proof
end

