-- ==== Sys2Proof/Decode.lean ====
section
/-! DEFINITION. Decoding and encoding of the 12-bit command word (spec 30_encoding.md R52 to R56). -/

namespace Sys2Proof

/-- Why a word is reserved (30_encoding.md R55). -/
inductive ReservedWord where
  /-- `op` in `0x6`..`0xF` -/
  | operation (op : BitVec 4) (d : Byte)
  /-- `op` of a command without an operand, and `d` ≠ `0x00` -/
  | operand (op : BitVec 4) (d : Byte)
  deriving DecidableEq, Repr

/-- Bits 11:8, the operation code (30_encoding.md R52). -/
def opField (w : CmdWord) : BitVec 4 := w.extractLsb' 8 4

/-- Bits 7:0, the operand (30_encoding.md R52). -/
def dField (w : CmdWord) : Byte := w.extractLsb' 0 8

/-- `DecodeCmd` (30_encoding.md R56), total on the 4096 words; RESERVED is a rejection by name. -/
def decode (w : CmdWord) : Except ReservedWord Instr :=
  let op := opField w
  let d := dField w
  if op = 0x1#4 then .ok (.feed d)
  else if op = 0x5#4 then .ok (.crcByte d)
  else if d = 0x00#8 ∧ op = 0x0#4 then .ok .nop
  else if d = 0x00#8 ∧ op = 0x2#4 then .ok .finish
  else if d = 0x00#8 ∧ op = 0x3#4 then .ok .reset
  else if d = 0x00#8 ∧ op = 0x4#4 then .ok .crcInit
  else if op ≤ 0x4#4 then .error (.operand op d)
  else .error (.operation op d)

/-- A row of the table of 30_encoding.md R53: a word `w` selects it when `w and mask = pattern`. -/
structure TableRow where
  mnemonic : String
  pattern : CmdWord
  mask : CmdWord
  deriving DecidableEq, Repr

/-- The row of 30_encoding.md R53 that an instruction belongs to. -/
def rowOf : Instr → TableRow
  | .nop => ⟨"NOP", 0x000#12, 0xFFF#12⟩
  | .feed _ => ⟨"FEED", 0x100#12, 0xF00#12⟩
  | .finish => ⟨"FINISH", 0x200#12, 0xFFF#12⟩
  | .reset => ⟨"RESET", 0x300#12, 0xFFF#12⟩
  | .crcInit => ⟨"CRC_INIT", 0x400#12, 0xFFF#12⟩
  | .crcByte _ => ⟨"CRC_BYTE", 0x500#12, 0xF00#12⟩

/-- A word selects a row (30_encoding.md R53). -/
def selects (w : CmdWord) (r : TableRow) : Bool := w &&& r.mask == r.pattern

/-- The word of a command: `op` in bits 11:8, `d` in bits 7:0, `d` = `0x00` where there is no operand (30_encoding.md
R52, R53); for FEED and CRC_BYTE "`0x100 or d`" and "`0x500 or d`" (42_reassembler.md R109, 40_crc_engine.md R78). -/
def encode : Instr → CmdWord
  | .nop => 0x000#12
  | .feed d => 0x100#12 ||| d.setWidth 12
  | .finish => 0x200#12
  | .reset => 0x300#12
  | .crcInit => 0x400#12
  | .crcByte d => 0x500#12 ||| d.setWidth 12

/-- A word given as a number of `nbits` bits, as a command word; none when a bit above bit 11 is set, since `cmd` has
twelve wires (30_encoding.md R51; log 14). -/
def tableWord (nbits w : Nat) : Option CmdWord :=
  let v := w % 2 ^ nbits
  if v < 4096 then some (BitVec.ofNat 12 v) else none

/-- What the decoder reads from a word numbered as opcode_table.json numbers it; none where the word is reserved. -/
def decodeTableWord (nbits w : Nat) : Option Instr :=
  match tableWord nbits w with
  | none => none
  | some v =>
    match decode v with
    | .ok i => some i
    | .error _ => none

end Sys2Proof
end

