-- ==== Sys2Proof/Machine/State.lean ====
section
/-! DEFINITION. The state of the machine (spec 10_state.md R15, R28), its events (30_encoding.md R57), the host's inputs, and the reasons a step could stop. -/

namespace Sys2Proof.Machine

/-- Why a frame is malformed (30_encoding.md R61). -/
inductive Reason where
  /-- `MARKER_MISSING`, code `0x01` -/
  | markerMissing
  /-- `LENGTH_INCONSISTENT`, code `0x02` -/
  | lengthInconsistent
  /-- `LENGTH_BOUNDS`, code `0x03` -/
  | lengthBounds
  deriving DecidableEq, Repr

/-- The event values of 30_encoding.md R57. -/
inductive Event where
  | frameDecoded (length : Half) (payload : List Half) (checksum : Half) (raw : List Byte)
  | checksumMismatch (expected received : Half) (raw : List Byte)
  | malformedFrame (reason : Reason) (raw : List Byte)
  | noiseDiscarded (raw : List Byte)
  | incompleteFrame (raw : List Byte)
  | bufferOverflow
  deriving DecidableEq, Repr

/-- What the host can do to the machine: offer a command word, or pulse `rst` (30_encoding.md R51, 70_reset_and_hazards.md R151). -/
inductive HostInput where
  | cmd (w : CmdWord)
  | rst
  deriving DecidableEq, Repr

/-- The one memory, the reassembly buffer as "a byte sequence" (10_state.md R15, R17): the byte at list position `a` is
the byte at address `a`, counted from the front (20_memory.md R32). One buffer content is one list (log 7). -/
abbrev Memory := List Byte

/-- `|BUF|` ≤ `CAP` (20_memory.md R40): the only bound the spec puts on the memory. -/
abbrev Memory.wf (c : Capacity) (m : Memory) : Prop := c.admits m.length = true

/-- Address and byte pairs of a memory whose front stands at address `a`, in rising order. -/
def Memory.cellsFrom (a : Nat) : Memory → List Host.Cell
  | [] => []
  | b :: m => (a, b) :: Memory.cellsFrom (a + 1) m

/-- The memory as address and byte pairs: addresses 0 to |BUF| - 1 (20_memory.md R32). -/
def Memory.cells (m : Memory) : List Host.Cell := Memory.cellsFrom 0 m

/-- The architectural state of 10_state.md R15 (`buf`, `crc`, `status`, `out`), with the build-time parameters (log 2)
and the host's inputs still to come (log 1). -/
structure State where
  /-- `CAP` and `MAX_ITEMS`; configuration, no step writes it (70_reset_and_hazards.md R154) -/
  params : Params
  /-- the MODEL's own field: what the host will send, oldest first (00_scope.md R6) -/
  inbox : List HostInput
  /-- `BUF` (10_state.md R17) -/
  buf : Memory
  /-- `CRC` (10_state.md R18) -/
  crc : Half
  /-- `STATUS` (10_state.md R19) -/
  status : Status
  /-- `OUT`, oldest event first (10_state.md R21) -/
  out : List Event
  deriving DecidableEq, Repr

/-- "the machine has no fault outcome and no stuck outcome of its own" (60_exceptions.md R150): the type of fault reasons
has no value, so nothing raises one. Safe: no behaviour is cut off (log 8). -/
inductive Fault where
  deriving DecidableEq, Repr

/-- Why the model may decline to give a meaning. -/
inductive Refusal where
  /-- raised by an arm of exec whose instruction has no meaning yet; no arm does. Safe. -/
  | notModelled (mnemonic : String)
  /-- raised by the transfer-level layer (Machine/Ports.lean) when `rst` falls inside a command, of which the spec "does
  not say which" outcome follows (70_reset_and_hazards.md R153, U6); no step raises it. Safe (log 9). -/
  | rstInsideCommand
  deriving DecidableEq, Repr

/-- The state after `rst` of a machine built with parameters `p` (10_state.md R28), nothing offered by the host. -/
def State.resetWith (p : Params) : State :=
  { params := p, inbox := [], buf := [], crc := 0xFFFF#16, status := 0x00#8, out := [] }

/-- The machine right after reset (10_state.md R28), built with the recommended parameters (log 2). -/
def State.reset : State := State.resetWith Params.recommended

end Sys2Proof.Machine
end

