-- ==== Sys2Proof/Machine/Flags.lean ====
section
/-! DEFINITION. The flags of the status register (spec 10_state.md R19, R20; 30_encoding.md R63). -/

namespace Sys2Proof.Machine

/-- The four sticky flags of 10_state.md R19. -/
inductive Flag where
  /-- the stream has ended -/
  | done
  /-- the fatal resource error has happened -/
  | ovf
  /-- the host has sent a word that is no command -/
  | ill
  /-- the host has sent stream data or an end of stream to a stopped reassembler -/
  | late
  deriving DecidableEq, Repr

/-- The bit of a flag in `STATUS` (30_encoding.md R63). -/
def flagBit : Flag → Nat
  | .done => 0
  | .ovf => 1
  | .ill => 2
  | .late => 3

/-- The value of a flag. -/
def getFlag (f : Flag) (st : Status) : Bool := st.getLsbD (flagBit f)

/-- `STATUS.F <- 1`; no command clears a single flag (10_state.md R20). -/
def setFlag (f : Flag) (st : Status) : Status := st ||| (1#8 <<< flagBit f)

/-- Bits 7:4, "reserved and always 0" (30_encoding.md R63). -/
def reservedBits (st : Status) : BitVec 4 := st.extractLsb' 4 4

/-- The reassembler is stopped: `DONE` = 1 or `OVF` = 1 (42_reassembler.md R108); "Running" is the contrary (43_control.md R126). -/
def stopped (st : Status) : Bool := getFlag .done st || getFlag .ovf st

end Sys2Proof.Machine
end

