-- ==== Sys2Proof/Machine/Operands.lean ====
section
/-! DEFINITION. Operand assembly: the marker, byte order, and reads of one and two bytes (spec 00_scope.md R7, R12, R13; 20_memory.md R32, R36; 30_encoding.md R48). -/

namespace Sys2Proof.Machine

/-- `MARKER0` (00_scope.md R7). -/
def marker0 : Byte := 0xBE#8

/-- `MARKER1` (00_scope.md R7). -/
def marker1 : Byte := 0xEF#8

/-- `MARKER`: `0xBE` then `0xEF` (00_scope.md R7). -/
def marker : List Byte := [marker0, marker1]

/-- `BE16(hi, lo)`: 256·hi + lo (00_scope.md R12). -/
def BE16 (hi lo : Byte) : Half := hi ++ lo

/-- `be16(v)`: `[v[15:8], v[7:0]]` (00_scope.md R12). -/
def be16 (v : Half) : List Byte := [v.extractLsb' 8 8, v.extractLsb' 0 8]

/-- A sequence of 16-bit values as bytes, each big-endian, first value first (30_encoding.md R47). -/
def be16s : List Half → List Byte
  | [] => []
  | v :: vs => be16 v ++ be16s vs

/-- The items of a payload: consecutive byte pairs, big-endian (30_encoding.md R48). A lone last byte is no item; no
caller hands one over, since a payload is 2·length bytes. -/
def itemsOf : List Byte → List Half
  | hi :: lo :: bs => BE16 hi lo :: itemsOf bs
  | _ => []

/-- `MemRead(a, 1)` (00_scope.md R13); none at or past `|BUF|`, where there is no byte (log 7). -/
def readByte (m : Memory) (a : Nat) : Option Byte := m[a]?

/-- `MemRead(a, 2)` = `BE16(BUF[a], BUF[a+1])` (20_memory.md R36); none unless both bytes are there. -/
def readHalf (m : Memory) (a : Nat) : Option Half :=
  match readByte m a, readByte m (a + 1) with
  | some hi, some lo => some (BE16 hi lo)
  | _, _ => none

/-- The sequence begins with the marker, `0xBE` then `0xEF`. -/
def startsWithMarker : List Byte → Bool
  | b0 :: b1 :: _ => b0 == marker0 && b1 == marker1
  | _ => false

end Sys2Proof.Machine
end

