-- ==== Sys2Proof/Machine/Ops.lean ====
section
/-! DEFINITION. The named operations on the state: buffer access, reporting an event, the fatal report, the late command, a fresh instance, `rst`, and taking the host's next input (spec 00_scope.md R13, 20_memory.md R33, R34, 60_exceptions.md R141 to R144). -/

namespace Sys2Proof.Machine

/-- The memory operation behind `BufAppend(d)` (20_memory.md R33). -/
def memAppend (m : Memory) (d : Byte) : Memory := m ++ [d]

/-- The memory operation behind `BufDrop(n)` (20_memory.md R34). -/
def memDrop (m : Memory) (n : Nat) : Memory := m.drop n

/-- `BufAppend(d)` (20_memory.md R33). -/
def bufAppend (d : Byte) (s : State) : State := { s with buf := memAppend s.buf d }

/-- `BufDrop(n)` (20_memory.md R34). -/
def bufDrop (n : Nat) (s : State) : State := { s with buf := memDrop s.buf n }

/-- `|BUF|` = `CAP`, "never true when `CAP` = `UNBOUNDED`" (42_reassembler.md R109). -/
def bufferFull (s : State) : Bool :=
  match s.params.cap with
  | .bounded c => s.buf.length == c
  | .unbounded => false

/-- `STATUS.F <- 1`. -/
def raiseFlag (f : Flag) (s : State) : State := { s with status := setFlag f s.status }

/-- `emit E` (10_state.md R21). Reporting an event IS the "entry" of 60_exceptions.md R141: nothing is saved, no mode
changes, no control goes anywhere. -/
def emit (e : Event) (s : State) : State := { s with out := s.out ++ [e] }

/-- "emit each element of ev, in order" (42_reassembler.md R109). -/
def emitAll (ev : List Event) (s : State) : State := { s with out := s.out ++ ev }

/-- The fatal report (60_exceptions.md R142): emit `BufferOverflow`, set `OVF`; `BUF` unchanged, the byte is lost. -/
def raiseOverflow (s : State) : State := raiseFlag .ovf (emit .bufferOverflow s)

/-- FEED or FINISH to a stopped reassembler: `LATE` <- 1, nothing else (42_reassembler.md R108). -/
def markLate (s : State) : State := raiseFlag .late s

/-- The return to a running reassembler (60_exceptions.md R144), as RESET does it (43_control.md R124): `BUF` empty and
its bytes unreported, `CRC` and `STATUS` at their reset values, `OUT` kept. -/
def freshInstance (s : State) : State :=
  { bufDrop s.buf.length s with crc := 0xFFFF#16, status := 0x00#8 }

/-- The `rst` input (70_reset_and_hazards.md R151): as RESET, "`rst` also starts the event trace". -/
def pinReset (s : State) : State := { freshInstance s with out := [] }

/-- The state with the host's oldest input taken off the queue; none when the host offers nothing. -/
def takeInput (s : State) : Option (HostInput × State) :=
  match s.inbox with
  | [] => none
  | x :: rest => some (x, { s with inbox := rest })

/-- The state with one more input of the host, to be taken first. -/
def offerFirst (x : HostInput) (s : State) : State := { s with inbox := x :: s.inbox }

end Sys2Proof.Machine
end

