-- ==== Sys2Proof/Machine/Control.lean ====
section
/-! DEFINITION. The control commands NOP and RESET, and the effect of a reserved word (spec 43_control.md R123 to R125). -/

namespace Sys2Proof.Machine

/-- NOP: "No state is read or written, no flag set, no event emitted, in every state" (43_control.md R123). -/
def execNop (s : State) : Host.Outcome State Fault Refusal := .next s

/-- RESET (43_control.md R124). -/
def execReset (s : State) : Host.Outcome State Fault Refusal := .next (freshInstance s)

/-- A reserved command word: `STATUS.ILL <- 1`, "Nothing else" (43_control.md R125). -/
def execReserved (s : State) : Host.Outcome State Fault Refusal := .next (raiseFlag .ill s)

end Sys2Proof.Machine
end

