-- ==== Sys2Proof/Machine/Crc.lean ====
section
/-! DEFINITION. The CRC-16 polynomial engine (spec 40_crc_engine.md): the functions of R70 to R74, the equivalent forms of R72, and the commands CRC_INIT and CRC_BYTE. -/

namespace Sys2Proof.Machine

/-- `POLY` (00_scope.md R7, 40_crc_engine.md R69). -/
def crcPoly : Half := 0x1021#16

/-- `INIT` (00_scope.md R7, 40_crc_engine.md R69). -/
def crcInitValue : Half := 0xFFFF#16

/-- `XOROUT` (00_scope.md R7, 40_crc_engine.md R69). -/
def crcXorOut : Half := 0x0000#16

/-- `CrcBit(c, b)`: one message bit (40_crc_engine.md R70). -/
def crcBit (c : Half) (b : Bool) : Half :=
  let fb := c.getLsbD 15 ^^ b
  let s := c <<< 1
  if fb then s ^^^ crcPoly else s

/-- `CrcByte(c, d)`: one message byte, `d[7]` first (40_crc_engine.md R71). -/
def crcStep (c : Half) (d : Byte) : Half :=
  let c7 := crcBit c (d.getLsbD 7)
  let c6 := crcBit c7 (d.getLsbD 6)
  let c5 := crcBit c6 (d.getLsbD 5)
  let c4 := crcBit c5 (d.getLsbD 4)
  let c3 := crcBit c4 (d.getLsbD 3)
  let c2 := crcBit c3 (d.getLsbD 2)
  let c1 := crcBit c2 (d.getLsbD 1)
  crcBit c1 (d.getLsbD 0)

/-- `CrcSpan(c, s)`: "a left fold of `CrcByte` over s, first byte first" (40_crc_engine.md R73). -/
def crcSpan (c : Half) (s : List Byte) : Half := s.foldl crcStep c

/-- `Crc16(s)`, the document's `compute` (40_crc_engine.md R74). -/
def crc16 (s : List Byte) : Half := crcSpan crcInitValue s ^^^ crcXorOut

/-- One round of the XOR-first form (40_crc_engine.md R72 a). -/
def xorFirstRound (t : Half) : Half := if t.getLsbD 15 then (t <<< 1) ^^^ crcPoly else t <<< 1

/-- The XOR-first form of `CrcByte` (40_crc_engine.md R72 a). -/
def crcStepXorFirst (c : Half) (d : Byte) : Half :=
  (List.range 8).foldl (fun t _ => xorFirstRound t) (c ^^^ (d.setWidth 16 <<< 8))

/-- `T[i]` = `CrcByte(0x0000, i)` (40_crc_engine.md R72 b). -/
def crcTable (i : Byte) : Half := crcStep 0x0000#16 i

/-- The table form of `CrcByte` (40_crc_engine.md R72 b). -/
def crcStepTable (c : Half) (d : Byte) : Half :=
  (c <<< 8) ^^^ crcTable (c.extractLsb' 8 8 ^^^ d)

/-- CRC_INIT (40_crc_engine.md R77). -/
def execCrcInit (s : State) : Host.Outcome State Fault Refusal :=
  .next { s with crc := crcInitValue }

/-- CRC_BYTE d (40_crc_engine.md R78). -/
def execCrcByte (d : Byte) (s : State) : Host.Outcome State Fault Refusal :=
  .next { s with crc := crcStep s.crc d }

end Sys2Proof.Machine
end

