-- ==== Sys2Proof/Machine/Codec.lean ====
section
/-! DEFINITION. The frame codec and the checksum validator (spec 41_frame_codec.md R81 to R90, R94). Pure functions; the reassembler calls them. -/

namespace Sys2Proof.Machine

/-- A decoded frame (41_frame_codec.md R81); the marker "is not a field of the record". -/
structure Frame where
  length : Half
  payload : List Half
  checksum : Half
  deriving DecidableEq, Repr

/-- `|payload|` = `length` (41_frame_codec.md R81). -/
def frameWf (f : Frame) : Bool := f.payload.length == f.length.toNat

/-- The tagged result of a decode (41_frame_codec.md R84). -/
inductive DecodeResult where
  | ok (f : Frame)
  | checksumMismatch (expected received : Half) (raw : List Byte)
  | malformedFrame (reason : Reason) (raw : List Byte)
  deriving DecidableEq, Repr

/-- `FrameLen(length)` = 4 + 2·length + 2, on natural numbers (41_frame_codec.md R82, 42_reassembler.md R102). -/
def frameLen (length : Nat) : Nat := 4 + 2 * length + 2

/-- All bytes of a frame but its checksum field: marker, length field, payload (41_frame_codec.md R83). -/
def frameBody (p : List Half) : List Byte :=
  marker ++ (be16 (BitVec.ofNat 16 p.length) ++ be16s p)

/-- `Encode(p)`, "not defined for n > 65535" (41_frame_codec.md R83). A specification function, not a hardware operation. -/
def encodeFrame (p : List Half) : Option (List Byte) :=
  if p.length ≤ 65535 then some (frameBody p ++ be16 (crc16 (frameBody p))) else none

/-- What the validator computes (41_frame_codec.md R87). -/
structure Validation where
  expected : Half
  received : Half
  deriving DecidableEq, Repr

/-- "match = (expected = received) -- 16-bit equality" (41_frame_codec.md R87). -/
def checksumMatches (v : Validation) : Bool := v.expected == v.received

/-- `Validate(b)` for `|b|` ≥ 6 (41_frame_codec.md R87); none for a shorter sequence, which no caller hands over (log 12). -/
def validate (b : List Byte) : Option Validation :=
  if b.length < 6 then none
  else (readHalf b (b.length - 2)).map fun received =>
    { expected := crc16 (b.take (b.length - 2)), received := received }

/-- The residue form of the validator's test: all bytes through the CRC, the register tested for zero (41_frame_codec.md R94). -/
def residueTest (b : List Byte) : Bool := crc16 b == 0x0000#16

/-- `Decode(b)`, total on every byte sequence (41_frame_codec.md R85). -/
def decodeFrame (p : Params) (b : List Byte) : DecodeResult :=
  if !startsWithMarker b then .malformedFrame .markerMissing b
  else
    match readHalf b 2 with
    | none => .malformedFrame .lengthInconsistent b
    | some length =>
      if b.length ≠ frameLen length.toNat then .malformedFrame .lengthInconsistent b
      else if p.maxItems.val < length.toNat then .malformedFrame .lengthBounds b
      else
        match validate b with
        | none => .malformedFrame .lengthInconsistent b
        | some v =>
          if !checksumMatches v then .checksumMismatch v.expected v.received b
          else .ok { length := length,
                     payload := itemsOf ((b.drop 4).take (2 * length.toNat)),
                     checksum := v.received }

/-- `EventOf(r, b)` (41_frame_codec.md R90). -/
def eventOf (r : DecodeResult) (b : List Byte) : Event :=
  match r with
  | .ok f => .frameDecoded f.length f.payload f.checksum b
  | .checksumMismatch expected received raw => .checksumMismatch expected received raw
  | .malformedFrame reason raw => .malformedFrame reason raw

/-- The raw bytes an event accounts for (30_encoding.md R57). -/
def eventRaw : Event → List Byte
  | .frameDecoded _ _ _ raw => raw
  | .checksumMismatch _ _ raw => raw
  | .malformedFrame _ raw => raw
  | .noiseDiscarded raw => raw
  | .incompleteFrame raw => raw
  | .bufferOverflow => []

end Sys2Proof.Machine
end

