-- ==== Sys2Proof/Machine/Reassembler.lean ====
section
/-! DEFINITION. The stream reassembler (spec 42_reassembler.md): marker detector, the eight-step loop, FEED, FINISH; the derived phase, level and quiescent invariant (10_state.md R22 to R24). -/

namespace Sys2Proof.Machine

/-- `FindMarker(b)`: the least index of `0xBE 0xEF`, or none (42_reassembler.md R96). -/
def findMarker : List Byte → Option Nat
  | b0 :: b1 :: bs =>
    if b0 = marker0 ∧ b1 = marker1 then some 0 else (findMarker (b1 :: bs)).map (· + 1)
  | _ => none

/-- The search with a "rolling scan cursor": positions before `k` are not looked at again (42_reassembler.md R106). -/
def findMarkerFrom (k : Nat) (b : List Byte) : Option Nat := (findMarker (b.drop k)).map (· + k)

/-- How one turn of the loop ends: it returns, or it continues with step 2. -/
inductive Turn where
  | stop (ev : List Event) (b : List Byte)
  | again (ev : List Event) (b : List Byte)
  deriving DecidableEq, Repr

/-- Step 3, discard-to-sync: the noise ahead of a marker at `idx` (42_reassembler.md R98). -/
def noiseEvents (idx : Nat) (b : List Byte) : List Event :=
  if 0 < idx then [.noiseDiscarded (b.take idx)] else []

/-- Steps 4 to 7 on a buffer that begins with the marker (42_reassembler.md R99 to R103): the length check, the bounds
check, the completeness check, extraction and decoding. `ev` is what step 3 has emitted. -/
def frameTurn (p : Params) (ev : List Event) (b : List Byte) : Turn :=
  match readHalf b 2 with
  | none => .stop ev b
  | some length =>
    if p.maxItems.val < length.toNat then
      .again (ev ++ [.malformedFrame .lengthBounds (b.take 4)]) (b.drop 4)
    else
      let total := frameLen length.toNat
      if b.length < total then .stop ev b
      else
        let cand := b.take total
        .again (ev ++ [eventOf (decodeFrame p cand) cand]) (b.drop total)

/-- The loop body, steps 2 to 7 (42_reassembler.md R104). -/
def drainTurn (p : Params) (b : List Byte) : Turn :=
  match findMarker b with
  | none => .stop [] b
  | some idx => frameTurn p (noiseEvents idx b) (b.drop idx)

/-- The loop with at most `n` turns left. -/
def drainFuel (p : Params) : Nat → List Byte → List Event × List Byte
  | 0, b => ([], b)
  | n + 1, b =>
    match drainTurn p b with
    | .stop ev b' => (ev, b')
    | .again ev b' => (ev ++ (drainFuel p n b').1, (drainFuel p n b').2)

/-- `Drain(b)` (42_reassembler.md R104): "the loop body runs at most ⌊`|b|`/4⌋ + 1 times" (R105; log 11). -/
def drain (p : Params) (b : List Byte) : List Event × List Byte :=
  drainFuel p (b.length / 4 + 1) b

/-- `FeedChunk(c)` on a buffer `b`: `Drain(b ++ c)` (42_reassembler.md R111). A specification function. -/
def feedChunk (p : Params) (b c : List Byte) : List Event × List Byte := drain p (b ++ c)

/-- What FINISH reports of the held bytes (42_reassembler.md R110). -/
def residueEvents (b : List Byte) : List Event :=
  if b = [] then []
  else if findMarker b = none then [.noiseDiscarded b]
  else [.incompleteFrame b]

/-- FEED d (42_reassembler.md R108, R109). -/
def execFeed (d : Byte) (s : State) : Host.Outcome State Fault Refusal :=
  if stopped s.status then .next (markLate s)
  else if bufferFull s then .next (raiseOverflow s)
  else
    let r := drain s.params (bufAppend d s).buf
    .next (emitAll r.1 { s with buf := r.2 })

/-- FINISH (42_reassembler.md R108, R110). -/
def execFinish (s : State) : Host.Outcome State Fault Refusal :=
  if stopped s.status then .next (markLate s)
  else .next (raiseFlag .done (bufDrop s.buf.length (emitAll (residueEvents s.buf) s)))

/-- The document's conceptual states (10_state.md R23). -/
inductive Phase where
  | seekSync
  | awaitLength
  | awaitPayload
  | frameReady
  deriving DecidableEq, Repr

/-- `Phase(BUF)` (10_state.md R23). -/
def phaseOf (p : Params) (b : List Byte) : Phase :=
  match findMarker b with
  | none => .seekSync
  | some idx =>
    if 0 < idx then .seekSync
    else
      match readHalf b 2 with
      | none => .awaitLength
      | some length =>
        if p.maxItems.val < length.toNat then .frameReady
        else if b.length < frameLen length.toNat then .awaitPayload
        else .frameReady

/-- The code of a phase on `phase_q` (30_encoding.md R64). -/
def phaseCode : Phase → BitVec 2
  | .seekSync => 0#2
  | .awaitLength => 1#2
  | .awaitPayload => 2#2
  | .frameReady => 3#2

/-- The quiescent invariant `Q(b)` (10_state.md R24). -/
def quiescent (p : Params) (b : List Byte) : Bool :=
  findMarker b == none ||
  (startsWithMarker b &&
    match readHalf b 2 with
    | none => true
    | some length =>
      decide (length.toNat ≤ p.maxItems.val) && decide (b.length < frameLen length.toNat))

/-- The width of `level_q`, "the least W with 2^W > `CAP`" (10_state.md R22); none for `UNBOUNDED`, where `LEVEL` "is an
unbounded natural number". -/
def levelWidth : Capacity → Option Nat
  | .bounded 0 => some 0
  | .bounded (c + 1) => some (Nat.log2 (c + 1) + 1)
  | .unbounded => none

/-- The outputs an observer samples between commands (10_state.md R29). -/
structure Outputs where
  crcQ : Half
  statusQ : Status
  levelQ : Nat
  phaseQ : BitVec 2
  deriving DecidableEq, Repr

/-- `crc_q`, `status_q`, `level_q`, `phase_q` of a state between commands (10_state.md R22, R23, R29). -/
def outputsOf (s : State) : Outputs :=
  { crcQ := s.crc, statusQ := s.status, levelQ := s.buf.length,
    phaseQ := phaseCode (phaseOf s.params s.buf) }

end Sys2Proof.Machine
end

