-- ==== Sys2Proof/Machine/Accept.lean ====
section
/-! DEFINITION. `Step(σ, w)` of spec 43_control.md R127 on a command word, and runs of command sequences. -/

namespace Sys2Proof.Machine

/-- An accepted word: decoded and executed; a reserved word sets `ILL` (43_control.md R125, R127). -/
def acceptWord (w : CmdWord) (s : State) : Host.Outcome State Fault Refusal :=
  match decode w with
  | .ok i => exec i s
  | .error _ => execReserved s

/-- One input of the host: a command word, or `rst`, which "falls between commands" (70_reset_and_hazards.md R151, R153). -/
def acceptInput (x : HostInput) (s : State) : Host.Outcome State Fault Refusal :=
  match x with
  | .cmd w => acceptWord w s
  | .rst => .next (pinReset s)

/-- The host's next input, if it offers one; "an idle engine (no command offered) holds its state indefinitely"
(60_exceptions.md R149; log 5). -/
def acceptNext (s : State) : Host.Outcome State Fault Refusal :=
  match takeInput s with
  | none => .next s
  | some (x, s') => acceptInput x s'

/-- Go on with `f` from a next state; a fault or a refusal ends the run. -/
def thenRun (o : Host.Outcome State Fault Refusal)
    (f : State → Host.Outcome State Fault Refusal) : Host.Outcome State Fault Refusal :=
  match o with
  | .next s => f s
  | .fault r => .fault r
  | .refused r => .refused r

/-- A run under a command sequence, `Step(.. Step(Step(σ, w1), w2) .., wk)` (43_control.md R127). -/
def runWords : List CmdWord → State → Host.Outcome State Fault Refusal
  | [], s => .next s
  | w :: ws, s => thenRun (acceptWord w s) (runWords ws)

/-- A run under a sequence of commands given as instructions. -/
def runInstrs : List Instr → State → Host.Outcome State Fault Refusal
  | [], s => .next s
  | i :: is, s => thenRun (exec i s) (runInstrs is)

/-- The state with the word's input put where the next step takes it; unchanged when the number is no 12-bit word (log 14). -/
def offerTableWord (s : State) (nbits w : Nat) : State :=
  match tableWord nbits w with
  | none => s
  | some v => offerFirst (.cmd v) s

end Sys2Proof.Machine
end

