-- ==== Sys2Proof/Machine/Step.lean ====
section
/-! DEFINITION. One step of the machine: "one accepted command (or one reset)" (spec 00_scope.md R10). -/

namespace Sys2Proof.Machine

/-- One step: the host's next input is taken and executed to completion; with nothing offered the state is held. -/
def step (s : State) : Host.Outcome State Fault Refusal := acceptNext s

/-- `s` with the command word put where step takes its next input. -/
def State.withFetchWord (s : State) (nbits w : Nat) : State := offerTableWord s nbits w

end Sys2Proof.Machine
end

