-- ==== Sys2Proof/Machine/Assembler.lean ====
section
/-! DEFINITION. The assembler line and the pseudo-commands (spec 30_encoding.md R65, R66). Text is a list of characters. -/

namespace Sys2Proof.Machine

/-- The mnemonic of a command, in capitals (30_encoding.md R65). -/
def mnemonicOf : Instr → List Char
  | .nop => ['N', 'O', 'P']
  | .feed _ => ['F', 'E', 'E', 'D']
  | .finish => ['F', 'I', 'N', 'I', 'S', 'H']
  | .reset => ['R', 'E', 'S', 'E', 'T']
  | .crcInit => ['C', 'R', 'C', '_', 'I', 'N', 'I', 'T']
  | .crcByte _ => ['C', 'R', 'C', '_', 'B', 'Y', 'T', 'E']

/-- A hexadecimal digit, capital (00_scope.md R11, 95_test_vectors.md). -/
def hexDigit (v : BitVec 4) : Char :=
  ['0', '1', '2', '3', '4', '5', '6', '7', '8', '9', 'A', 'B', 'C', 'D', 'E', 'F'].getD v.toNat '0'

/-- The value of a hexadecimal digit, capital or small (log 17). -/
def hexValue (c : Char) : Option (BitVec 4) :=
  let n := c.toNat
  if 48 ≤ n ∧ n ≤ 57 then some (BitVec.ofNat 4 (n - 48))
  else if 65 ≤ n ∧ n ≤ 70 then some (BitVec.ofNat 4 (n - 55))
  else if 97 ≤ n ∧ n ≤ 102 then some (BitVec.ofNat 4 (n - 87))
  else none

/-- A byte written `0xHH` (30_encoding.md R65). -/
def renderByte (d : Byte) : List Char :=
  ['0', 'x', hexDigit (d.extractLsb' 4 4), hexDigit (d.extractLsb' 0 4)]

/-- A word "written as three hexadecimal digits" (30_encoding.md R65). -/
def renderWord (w : CmdWord) : List Char :=
  [hexDigit (w.extractLsb' 8 4), hexDigit (w.extractLsb' 4 4), hexDigit (w.extractLsb' 0 4)]

/-- A line: "the mnemonic of rule R53 in capitals, then for FEED and CRC_BYTE one operand" (30_encoding.md R65). -/
def renderLine : Instr → List Char
  | .feed d => mnemonicOf (.feed d) ++ ' ' :: renderByte d
  | .crcByte d => mnemonicOf (.crcByte d) ++ ' ' :: renderByte d
  | .nop => mnemonicOf .nop
  | .finish => mnemonicOf .finish
  | .reset => mnemonicOf .reset
  | .crcInit => mnemonicOf .crcInit

/-- Why a line is no command. -/
inductive LineError where
  | unknownMnemonic (m : List Char)
  | badOperand (t : List Char)
  | missingOperand
  | extraOperand
  deriving DecidableEq, Repr

/-- The line without its comment: "Comments start with `;`" (30_encoding.md R65). -/
def dropComment (line : List Char) : List Char := line.takeWhile (· ≠ ';')

/-- The blank-separated parts of a line; `held` is the part being read. -/
def splitParts : List Char → List Char → List (List Char)
  | held, [] => if held = [] then [] else [held]
  | held, c :: cs =>
    if c = ' ' ∨ c = '\t' then (if held = [] then splitParts [] cs else held :: splitParts [] cs)
    else splitParts (held ++ [c]) cs

/-- A byte written `0xHH` (30_encoding.md R65). -/
def parseByte : List Char → Option Byte
  | ['0', 'x', h1, h0] =>
    match hexValue h1, hexValue h0 with
    | some v1, some v0 => some (v1 ++ v0)
    | _, _ => none
  | _ => none

/-- The command of a mnemonic without an operand. -/
def plainCommand (m : List Char) : Option Instr :=
  if m = mnemonicOf .nop then some .nop
  else if m = mnemonicOf .finish then some .finish
  else if m = mnemonicOf .reset then some .reset
  else if m = mnemonicOf .crcInit then some .crcInit
  else none

/-- The command of a mnemonic with an operand. -/
def byteCommand (m : List Char) (d : Byte) : Option Instr :=
  if m = mnemonicOf (.feed d) then some (.feed d)
  else if m = mnemonicOf (.crcByte d) then some (.crcByte d)
  else none

/-- A line of a program (30_encoding.md R65); none for a line that holds only a comment. -/
def parseLine (line : List Char) : Except LineError (Option Instr) :=
  match splitParts [] (dropComment line) with
  | [] => .ok none
  | [m] =>
    match plainCommand m with
    | some i => .ok (some i)
    | none =>
      match byteCommand m 0x00#8 with
      | some _ => .error .missingOperand
      | none => .error (.unknownMnemonic m)
  | [m, t] =>
    match plainCommand m, parseByte t with
    | some _, _ => .error .extraOperand
    | none, none => .error (.badOperand t)
    | none, some d =>
      match byteCommand m d with
      | some i => .ok (some i)
      | none => .error (.unknownMnemonic m)
  | _ => .error .extraOperand

/-- FEEDCHUNK: a FEED per byte; with no bytes, FINISH (30_encoding.md R66). -/
def expandChunk (bytes : List Byte) : List Instr :=
  if bytes = [] then [.finish] else bytes.map .feed

/-- The expansion of a pseudo-command (30_encoding.md R66); none for SENDFRAME of a payload `Encode` is not defined for. -/
def expandPseudo : Pseudo → Option (List Instr)
  | .feedChunk bytes => some (expandChunk bytes)
  | .crcCompute bytes => some (.crcInit :: bytes.map .crcByte)
  | .sendFrame items => (encodeFrame items).map expandChunk
  | .new => some [.reset]

end Sys2Proof.Machine
end

