-- ==== Sys2Proof/Machine/EventPort.lean ====
section
/-! DEFINITION. The event port: symbols, packet layouts, codes, and the receiver (spec 30_encoding.md R58 to R62). -/

namespace Sys2Proof.Machine

/-- A symbol: bit 9 `sop`, bit 8 `eop`, bits 7:0 the byte (30_encoding.md R58). -/
def packSymbol (sop eop : Bool) (b : Byte) : Symbol :=
  (if sop then 0x200#10 else 0x000#10) ||| (if eop then 0x100#10 else 0x000#10) ||| b.setWidth 10

/-- Bit 9 of a symbol (30_encoding.md R58). -/
def symbolSop (x : Symbol) : Bool := x.getLsbD 9

/-- Bit 8 of a symbol (30_encoding.md R58). -/
def symbolEop (x : Symbol) : Bool := x.getLsbD 8

/-- Bits 7:0 of a symbol (30_encoding.md R58). -/
def symbolByte (x : Symbol) : Byte := x.extractLsb' 0 8

/-- The code of an event (30_encoding.md R59). -/
def eventCode : Event → Byte
  | .frameDecoded .. => 0x01#8
  | .checksumMismatch .. => 0x02#8
  | .malformedFrame .. => 0x03#8
  | .noiseDiscarded .. => 0x04#8
  | .incompleteFrame .. => 0x05#8
  | .bufferOverflow => 0x06#8

/-- The reason codes of `MalformedFrame` (30_encoding.md R61). -/
def reasonCode : Reason → Byte
  | .markerMissing => 0x01#8
  | .lengthInconsistent => 0x02#8
  | .lengthBounds => 0x03#8

/-- The reason with a given code (30_encoding.md R61). -/
def reasonOfCode (c : Byte) : Option Reason :=
  if c = 0x01#8 then some .markerMissing
  else if c = 0x02#8 then some .lengthInconsistent
  else if c = 0x03#8 then some .lengthBounds
  else none

/-- What follows the code byte of a packet (30_encoding.md R60). -/
def packetTail : Event → List Byte
  | .frameDecoded _ _ _ raw => raw.drop 2
  | .checksumMismatch expected received raw => be16 expected ++ (be16 received ++ raw)
  | .malformedFrame reason raw => reasonCode reason :: raw
  | .noiseDiscarded raw => raw
  | .incompleteFrame raw => raw
  | .bufferOverflow => []

/-- The bytes of an event's packet (30_encoding.md R60). -/
def packetBytes (e : Event) : List Byte := eventCode e :: packetTail e

/-- Bytes as symbols, `eop` on the last; `sop` on the first when `first` holds (30_encoding.md R58). -/
def packSymbols (first : Bool) : List Byte → List Symbol
  | [] => []
  | b :: bs => packSymbol first bs.isEmpty b :: packSymbols false bs

/-- The packet of an event (30_encoding.md R58, R60). -/
def packetOf (e : Event) : List Symbol := packSymbols true (packetBytes e)

/-- "the concatenation of the packets of the events in `OUT`, in order" (10_state.md R21). -/
def symbolsOf (ev : List Event) : List Symbol := ev.flatMap packetOf

/-- The event a packet's bytes stand for (30_encoding.md R60, R62). "For `FrameDecoded` the receiver can check 5 +
2·length against the packet length"; here it does. None for bytes that do not have the fixed fields of R60. DESIGN CHOICE
(log 15): the raw bytes are not checked, so a packet outside the length bounds of R62 is read as an event with the raw
bytes it has (the single bytes `0x04` and `0x05`, a `ChecksumMismatch` without raw: raw is empty). Safe: the engine sends
none. -/
def parsePacket : List Byte → Option Event
  | [] => none
  | code :: bs =>
    if code = 0x01#8 then
      match bs with
      | l1 :: l0 :: rest =>
        if rest.length = 2 * (BE16 l1 l0).toNat + 2 then
          (readHalf rest (rest.length - 2)).map fun checksum =>
            .frameDecoded (BE16 l1 l0) (itemsOf (rest.take (2 * (BE16 l1 l0).toNat))) checksum
              (marker ++ bs)
        else none
      | _ => none
    else if code = 0x02#8 then
      match bs with
      | e1 :: e0 :: r1 :: r0 :: raw => some (.checksumMismatch (BE16 e1 e0) (BE16 r1 r0) raw)
      | _ => none
    else if code = 0x03#8 then
      match bs with
      | c :: raw => (reasonOfCode c).map fun reason => .malformedFrame reason raw
      | [] => none
    else if code = 0x04#8 then some (.noiseDiscarded bs)
    else if code = 0x05#8 then some (.incompleteFrame bs)
    else if code = 0x06#8 then (if bs = [] then some .bufferOverflow else none)
    else none

/-- The receiver of 30_encoding.md R62 over a symbol stream. `held` is none between packets, and inside a packet its
bytes so far. It "reads a symbol with `sop` = 1, takes its byte as the code, and collects bytes up to and including the
symbol with `eop` = 1". None when the stream is no sequence of whole packets of R60 (log 15). -/
def receive : Option (List Byte) → List Symbol → Option (List Event)
  | none, [] => some []
  | some _, [] => none
  | none, x :: xs =>
    if !symbolSop x then none
    else if symbolEop x then
      match parsePacket [symbolByte x] with
      | none => none
      | some e => (receive none xs).map (e :: ·)
    else receive (some [symbolByte x]) xs
  | some bs, x :: xs =>
    if symbolSop x then none
    else if symbolEop x then
      match parsePacket (bs ++ [symbolByte x]) with
      | none => none
      | some e => (receive none xs).map (e :: ·)
    else receive (some (bs ++ [symbolByte x])) xs

end Sys2Proof.Machine
end

