-- ==== Sys2Proof/Machine/Ports.lean ====
section
/-! DEFINITION. The transfer level: which transfers happen on the command port and the event port, and when a command completes (spec 30_encoding.md R51, R52, R58; 70_reset_and_hazards.md R153, R160). The step of the machine (Machine/Step.lean) is the transaction level of 00_scope.md R10; this layer shows its handshakes (log 9). -/

namespace Sys2Proof.Machine

/-- The machine with the symbols of the command in progress that the sink has not taken yet, and the symbols that have
crossed the event port since `rst`. -/
structure PortState where
  core : State
  pending : List Symbol
  sent : List Symbol
  deriving DecidableEq, Repr

/-- What happens at the ports: the host offers a word (`cmd_valid`), the sink is ready (`evt_ready`), or `rst`. -/
inductive PortMove where
  | offer (w : CmdWord)
  | sinkReady
  | rst
  deriving DecidableEq, Repr

/-- `cmd_ready`: the engine takes a word only when the last symbol of the command before has been transferred (30_encoding.md R52, R58). -/
def cmdReady (p : PortState) : Bool := p.pending.isEmpty

/-- `evt_valid`: the engine offers a symbol. -/
def evtValid (p : PortState) : Bool := !p.pending.isEmpty

/-- `evt[9:0]`; none when `evt_valid` is false, where no rule reads it (93_implementation_defined.md U13). -/
def evtOut (p : PortState) : Option Symbol := p.pending.head?

/-- The level outputs; none while a command is in progress, where they are not specified (93_implementation_defined.md U14). -/
def outputsAtPort (p : PortState) : Option Outputs :=
  if cmdReady p then some (outputsOf p.core) else none

/-- The events of a command: what it appended to the trace. -/
def newEvents (before after : State) : List Event := after.out.drop before.out.length

/-- A word is transferred when `cmd_valid` and `cmd_ready` are both true, else nothing happens (30_encoding.md R52). -/
def moveOffer (w : CmdWord) (p : PortState) : Host.Outcome PortState Fault Refusal :=
  if cmdReady p then
    match acceptWord w p.core with
    | .next t => .next { core := t, pending := symbolsOf (newEvents p.core t), sent := p.sent }
    | .fault r => .fault r
    | .refused r => .refused r
  else .next p

/-- A symbol is transferred when `evt_valid` and `evt_ready` are both true, else nothing happens (30_encoding.md R58). -/
def moveSink (p : PortState) : Host.Outcome PortState Fault Refusal :=
  match p.pending with
  | [] => .next p
  | x :: xs => .next { p with pending := xs, sent := p.sent ++ [x] }

/-- `rst` between commands; inside one the model declines (70_reset_and_hazards.md R153, U6). -/
def moveRst (p : PortState) : Host.Outcome PortState Fault Refusal :=
  if cmdReady p then .next { core := pinReset p.core, pending := [], sent := [] }
  else .refused .rstInsideCommand

/-- One move at the ports. -/
def portMove (m : PortMove) (p : PortState) : Host.Outcome PortState Fault Refusal :=
  match m with
  | .offer w => moveOffer w p
  | .sinkReady => moveSink p
  | .rst => moveRst p

/-- A sequence of moves; it ends at the first move the model declines. -/
def portRun : List PortMove → PortState → Host.Outcome PortState Fault Refusal
  | [], p => .next p
  | m :: ms, p =>
    match portMove m p with
    | .next q => portRun ms q
    | .fault r => .fault r
    | .refused r => .refused r

/-- The ports after `rst` of a machine built with parameters `q`. -/
def portReset (q : Params) : PortState := { core := State.resetWith q, pending := [], sent := [] }

end Sys2Proof.Machine
end

