-- ==== Sys2Proof/Safety.lean ====
section
/-! DEFINITION. What counts as a sound state and a well-behaved host, in the terms the statements use (spec 10_state.md R19, R20, R24; 30_encoding.md R57, R63; 43_control.md R128; 60_exceptions.md R131, R139). -/

namespace Sys2Proof.Machine

/-- A report is truthful: it is one of those 60_exceptions.md R131 lists, with the records of R139. A decoded frame and a
mismatch are what `Decode` answers for the raw bytes; the only `MalformedFrame` is the bounds check's on a 4-byte header
(41_frame_codec.md R91); noise holds no marker and at least one byte; an incomplete frame begins with the marker and is
short of its total. -/
def eventTruthful (p : Params) : Event → Bool
  | .frameDecoded length payload checksum raw =>
      decodeFrame p raw == .ok { length := length, payload := payload, checksum := checksum }
  | .checksumMismatch expected received raw =>
      decodeFrame p raw == .checksumMismatch expected received raw
  | .malformedFrame reason raw =>
      reason == .lengthBounds && raw.length == 4 && startsWithMarker raw &&
        (match readHalf raw 2 with
          | none => false
          | some length => decide (p.maxItems.val < length.toNat))
  | .noiseDiscarded raw => raw != [] && findMarker raw == none
  | .incompleteFrame raw => startsWithMarker raw && quiescent p raw
  | .bufferOverflow => p.cap != .unbounded

/-- The invariant of the machine between commands. -/
structure Inv (s : State) : Prop where
  /-- the parameters are legal (70_reset_and_hazards.md R155) -/
  paramsLegal : s.params.wf = true
  /-- `|BUF|` ≤ `CAP` (10_state.md R24) -/
  bufferFits : Memory.wf s.params.cap s.buf
  /-- `Q(BUF)` (10_state.md R24) -/
  bufferQuiescent : quiescent s.params s.buf = true
  /-- bits 7:4 of `STATUS` are 0 (30_encoding.md R63) -/
  reservedZero : reservedBits s.status = 0#4
  /-- "`DONE` and `OVF` are never both set" (10_state.md R20) -/
  notBothStops : ¬ (getFlag .done s.status = true ∧ getFlag .ovf s.status = true)
  /-- FINISH empties the buffer (42_reassembler.md R110) -/
  doneEmpty : getFlag .done s.status = true → s.buf = []
  /-- "While `OVF` = 1: `BUF` keeps the `CAP` bytes it held" (60_exceptions.md R142) -/
  overflowFull : getFlag .ovf s.status = true → s.params.cap = .bounded s.buf.length
  /-- every report in the trace is truthful -/
  reportsTruthful : ∀ e ∈ s.out, eventTruthful s.params e = true
  /-- every report's raw bytes have been in the buffer together (30_encoding.md R62) -/
  reportsFit : ∀ e ∈ s.out, s.params.cap.admits (eventRaw e).length = true

/-- Where a host stands in the lifecycle of 43_control.md R128. -/
inductive HostPhase where
  /-- since `rst` or RESET no stream data and no end of stream has been sent -/
  | fresh
  /-- stream data has been sent -/
  | streaming
  /-- FINISH has been sent -/
  | ended
  deriving DecidableEq, Repr

/-- The host's place after a command; none where the grammar of 43_control.md R128 does not admit it. `job` says that a
checksum has been started by CRC_INIT and not destroyed by a RESET (log 16). -/
def hostNext : HostPhase → Bool → Instr → Option (HostPhase × Bool)
  | ph, job, .nop => some (ph, job)
  | .fresh, job, .feed _ => some (.streaming, job)
  | .streaming, job, .feed _ => some (.streaming, job)
  | .ended, _, .feed _ => none
  | .fresh, job, .finish => some (.ended, job)
  | .streaming, job, .finish => some (.ended, job)
  | .ended, _, .finish => none
  | .fresh, _, .reset => some (.fresh, false)
  | .streaming, _, .reset => none
  | .ended, _, .reset => some (.fresh, false)
  | ph, _, .crcInit => some (ph, true)
  | ph, job, .crcByte _ => if job then some (ph, true) else none

/-- A well-behaved host's command words (43_control.md R128): the lifecycle, and no reserved word. -/
def wellBehaved : HostPhase → Bool → List CmdWord → Bool
  | _, _, [] => true
  | ph, job, w :: ws =>
    match decode w with
    | .error _ => false
    | .ok i =>
      match hostNext ph job i with
      | none => false
      | some (ph', job') => wellBehaved ph' job' ws

end Sys2Proof.Machine
end

