-- ==== Sys2Proof/Certificates/Slice0/Obligations.lean ====
section
/-! DEFINITION. The statements for the provers. Each docstring names the rule of the spec that it formalises. -/

open Sys2Proof Sys2Proof.Machine

/-! ### Words the statements use -/

/-- What the spec's `FrameDecoded` reports of the frame of payload `p` sent as the bytes `raw` (30_encoding.md R57, 41_frame_codec.md R90, R92). -/
def Sys2Proof.Machine.decodedReport (p : List Half) (raw : List Byte) : Event :=
  .frameDecoded (BitVec.ofNat 16 p.length) p (crc16 (frameBody p)) raw

/-- One `NoiseDiscarded` for a run of noise, none for no bytes (42_reassembler.md R98, R117). -/
def Sys2Proof.Machine.noiseReport (n : List Byte) : List Event :=
  if n = [] then [] else [.noiseDiscarded n]

/-- The frame of a payload: body and checksum (41_frame_codec.md R83), for payloads `Encode` is defined for. -/
def Sys2Proof.Machine.frameOf (p : List Half) : List Byte := frameBody p ++ be16 (crc16 (frameBody p))

/-- A bit string as a polynomial over GF(2), bit i the coefficient of x^i (40_crc_engine.md R75). -/
noncomputable def Sys2Proof.Machine.bitsPoly {w : Nat} (v : BitVec w) : Polynomial (ZMod 2) :=
  (Finset.range w).sum fun i => if v.getLsbD i then Polynomial.X ^ i else 0

/-- A byte sequence as a polynomial, "first byte's bit 7 the highest" (40_crc_engine.md R75). -/
noncomputable def Sys2Proof.Machine.bytesPoly : List Byte → Polynomial (ZMod 2)
  | [] => 0
  | d :: s => bitsPoly d * Polynomial.X ^ (8 * s.length) + bytesPoly s

/-- G(x) = x^16 + x^12 + x^5 + 1 (40_crc_engine.md R69). -/
noncomputable def Sys2Proof.Machine.crcGenerator : Polynomial (ZMod 2) :=
  Polynomial.X ^ 16 + Polynomial.X ^ 12 + Polynomial.X ^ 5 + 1

/-- Every candidate that a stream fed to an empty reassembler starts has `FrameLen` at most F (42_reassembler.md R122). A
candidate is pending after a prefix of the stream when what `Drain` leaves of it begins with the marker; its `FrameLen` is
that of its length field, and is at least `MIN_FRAME` = 6 (00_scope.md R7) while the length field is still to come. -/
def Sys2Proof.Machine.candidatesWithin (p : Params) (bytes : List Byte) (F : Nat) : Prop :=
  ∀ pre, pre <+: bytes → startsWithMarker (drain p pre).2 = true →
    6 ≤ F ∧ ∀ length, readHalf (drain p pre).2 2 = some length → frameLen length.toNat ≤ F

/-! ### The command word -/

/-- 30_encoding.md R53: a word selects the row whose (w and mask) = match, and the row is what it decodes to. -/
def Obligations.WordsSelectTheirTableRow : Prop :=
  ∀ w : CmdWord,
    (w &&& 0xFFF#12 = 0x000#12 ↔ decode w = .ok .nop) ∧
    (w &&& 0xF00#12 = 0x100#12 ↔ decode w = .ok (.feed (w.extractLsb' 0 8))) ∧
    (w &&& 0xFFF#12 = 0x200#12 ↔ decode w = .ok .finish) ∧
    (w &&& 0xFFF#12 = 0x300#12 ↔ decode w = .ok .reset) ∧
    (w &&& 0xFFF#12 = 0x400#12 ↔ decode w = .ok .crcInit) ∧
    (w &&& 0xF00#12 = 0x500#12 ↔ decode w = .ok (.crcByte (w.extractLsb' 0 8)))

/-- 30_encoding.md R55, 43_control.md R125: which words are reserved, that there are 3580 of them, and that one sets
`STATUS.ILL` (bit 2) and does nothing else, in every state. -/
def Obligations.ReservedWordsOnlySetIll : Prop :=
  (∀ w : CmdWord, (∃ r, decode w = .error r) ↔
    (6 ≤ (w.extractLsb' 8 4).toNat ∨
      ((w.extractLsb' 8 4).toNat ∈ [0, 2, 3, 4] ∧ w.extractLsb' 0 8 ≠ 0x00#8))) ∧
  ((List.range 4096).filter fun n =>
    match decode (BitVec.ofNat 12 n) with
    | .error _ => true
    | .ok _ => false).length = 3580 ∧
  (∀ (w : CmdWord) (r : ReservedWord) (s : State), decode w = .error r →
    acceptWord w s = .next { s with status := s.status ||| 0x04#8 })

/-- Decode and encode agree in both directions: every command, with every operand byte, decodes back from its word, and
a word that decodes is the word of what it decodes to (30_encoding.md R53, R54, R56). -/
def Obligations.CommandCodecRoundTrip : Prop :=
  (∀ i : Instr, i.wf = true → decode (encode i) = .ok i) ∧
  (∀ (w : CmdWord) (i : Instr), decode w = .ok i → encode i = w)

/-- Words written out from 95_test_vectors.md section 2.7. -/
def Obligations.WrittenWordsDecode : Prop :=
  decode 0x000#12 = .ok .nop ∧ decode 0x1BE#12 = .ok (.feed 0xBE#8) ∧
  decode 0x1FF#12 = .ok (.feed 0xFF#8) ∧ decode 0x200#12 = .ok .finish ∧
  decode 0x300#12 = .ok .reset ∧ decode 0x400#12 = .ok .crcInit ∧
  decode 0x5BE#12 = .ok (.crcByte 0xBE#8) ∧
  decode 0x201#12 = .error (.operand 0x2#4 0x01#8) ∧
  decode 0x3FF#12 = .error (.operand 0x3#4 0xFF#8) ∧
  decode 0x600#12 = .error (.operation 0x6#4 0x00#8)

/-- 30_encoding.md R65: a rendered line reads back as its command, and the three worked encodings of the rule. -/
def Obligations.AssemblerLineRoundTrip : Prop :=
  (∀ i : Instr, parseLine (renderLine i) = .ok (some i)) ∧
  renderWord (encode (.feed 0xBE#8)) = ['1', 'B', 'E'] ∧
  renderWord (encode (.crcByte 0x31#8)) = ['5', '3', '1'] ∧
  renderWord (encode .finish) = ['2', '0', '0']

/-! ### The step -/

/-- A step runs the decoded command: the offered word is taken and executed, with nothing added around exec; the same
through `withFetchWord` (43_control.md R127, 00_scope.md R10; the queue of inputs is the model's, log 1). -/
def Obligations.StepRunsTheDecodedCommand : Prop :=
  (∀ (s : State) (w : CmdWord) (rest : List HostInput) (i : Instr),
    s.inbox = .cmd w :: rest → decode w = .ok i →
    step s = exec i { s with inbox := rest }) ∧
  (∀ (s : State) (nbits w : Nat) (i : Instr), decodeTableWord nbits w = some i →
    step (s.withFetchWord nbits w) = exec i s)

/-- With nothing offered the state is held; a reserved word sets `ILL` and is taken (60_exceptions.md R149, 43_control.md
R125; that a step with nothing offered is a next state is the model's choice, log 5). -/
def Obligations.StepWithoutACommand : Prop :=
  (∀ s : State, s.inbox = [] → step s = .next s) ∧
  (∀ (s : State) (w : CmdWord) (rest : List HostInput) (r : ReservedWord),
    s.inbox = .cmd w :: rest → decode w = .error r →
    step s = .next { s with inbox := rest, status := s.status ||| 0x04#8 })

/-- 70_reset_and_hazards.md R151: the two resets, and that after either `LEVEL` = 0 and `PHASE` = `SEEK_SYNC`. That `rst`
is an input of the host's queue is the model's (log 1, 3). -/
def Obligations.BothResetsRestoreTheResetValues : Prop :=
  (∀ (s : State) (rest : List HostInput), s.inbox = .rst :: rest →
    step s = .next { s with inbox := rest, buf := [], crc := 0xFFFF#16, status := 0x00#8, out := [] }) ∧
  (∀ s : State, exec .reset s = .next { s with buf := [], crc := 0xFFFF#16, status := 0x00#8 }) ∧
  (∀ s t : State, (exec .reset s = .next t ∨ (∃ rest, s.inbox = .rst :: rest) ∧ step s = .next t) →
    (outputsOf t).levelQ = 0 ∧ (outputsOf t).phaseQ = 0#2 ∧ (outputsOf t).crcQ = 0xFFFF#16)

/-- 43_control.md R127, 60_exceptions.md R150: every pair of a state and a command word has a next state. The model's own
in it: a step with nothing offered is a next state too (log 5), and the sink is taken to accept every symbol of the
command, the proviso of R127 (log 4), so nothing here says that a command completes when the sink stops for ever. -/
def Obligations.EveryStepHasANextState : Prop :=
  (∀ s : State, ∃ t : State, step s = .next t) ∧
  (∀ (w : CmdWord) (s : State), ∃ t : State, acceptWord w s = .next t)

/-! ### What each command does -/

/-- 43_control.md R123: NOP, and its word `0x000`, in every state. -/
def Obligations.NopChangesNothing : Prop :=
  ∀ s : State, exec .nop s = .next s ∧ acceptWord 0x000#12 s = .next s

/-- 40_crc_engine.md R77: CRC_INIT, and its word `0x400`, in every state; `0xFFFF` is `Crc16([])`. -/
def Obligations.CrcInitLoadsInitialValue : Prop :=
  (∀ s : State, exec .crcInit s = .next { s with crc := 0xFFFF#16 } ∧
    acceptWord 0x400#12 s = exec .crcInit s) ∧
  crc16 [] = 0xFFFF#16

/-- 40_crc_engine.md R78: CRC_BYTE d, and its word `0x500` or d, in every state; after CRC_INIT and the bytes of s,
`CRC` = `Crc16(s)`; zero is not a stuck value; the rule's example. -/
def Obligations.CrcByteFeedsTheRegister : Prop :=
  (∀ (s : State) (d : Byte), exec (.crcByte d) s = .next { s with crc := crcStep s.crc d } ∧
    acceptWord (0x500#12 ||| d.setWidth 12) s = exec (.crcByte d) s) ∧
  (∀ (s : State) (bytes : List Byte),
    runInstrs (.crcInit :: bytes.map .crcByte) s = .next { s with crc := crc16 bytes }) ∧
  (∀ d : Byte, d ≠ 0x00#8 → crcStep 0x0000#16 d ≠ 0x0000#16) ∧
  (∀ s : State, s.crc = 0xFFFF#16 → acceptWord 0x531#12 s = .next { s with crc := 0xC782#16 })

/-- 42_reassembler.md R109: FEED d, and its word `0x100` or d, in every state: stopped, full, or append, drain and emit in
order; with the rule's example. `OVF` is bit 1 and `LATE` bit 3 (30_encoding.md R63). -/
def Obligations.FeedFollowsItsPseudocode : Prop :=
  (∀ (s : State) (d : Byte),
    exec (.feed d) s =
      (if getFlag .done s.status = true ∨ getFlag .ovf s.status = true then
        .next { s with status := s.status ||| 0x08#8 }
      else if s.params.cap = .bounded s.buf.length then
        .next { s with status := s.status ||| 0x02#8, out := s.out ++ [.bufferOverflow] }
      else
        .next { s with buf := (drain s.params (s.buf ++ [d])).2,
                       out := s.out ++ (drain s.params (s.buf ++ [d])).1 }) ∧
    acceptWord (0x100#12 ||| d.setWidth 12) s = exec (.feed d) s) ∧
  (∀ s : State, stopped s.status = false → s.params.cap ≠ .bounded 5 →
    s.buf = [0xBE#8, 0xEF#8, 0x00#8, 0x00#8, 0x5B#8] →
    acceptWord 0x14B#12 s =
      .next { s with
        buf := [],
        out := s.out ++ [.frameDecoded 0x0000#16 [] 0x5B4B#16 [0xBE#8, 0xEF#8, 0x00#8, 0x00#8, 0x5B#8, 0x4B#8]] })

/-- 42_reassembler.md R108: FEED or FINISH to a stopped reassembler sets `LATE` (bit 3), nothing else. -/
def Obligations.LateCommandsOnlySetLate : Prop :=
  ∀ (s : State) (d : Byte), (getFlag .done s.status = true ∨ getFlag .ovf s.status = true) →
    exec (.feed d) s = .next { s with status := s.status ||| 0x08#8 } ∧
    exec .finish s = .next { s with status := s.status ||| 0x08#8 }

/-- 42_reassembler.md R110: FINISH, and its word `0x200`, in every state: stopped, it sets `LATE` (bit 3); running, the
residue is reported, the buffer emptied, `DONE` (bit 0) set. -/
def Obligations.FinishReportsTheResidue : Prop :=
  (∀ s : State, acceptWord 0x200#12 s = exec .finish s) ∧
  (∀ s : State, getFlag .done s.status = true ∨ getFlag .ovf s.status = true →
    exec .finish s = .next { s with status := s.status ||| 0x08#8 }) ∧
  (∀ s : State, getFlag .done s.status = false → getFlag .ovf s.status = false →
    (s.buf = [] → exec .finish s = .next { s with status := s.status ||| 0x01#8 }) ∧
    (s.buf ≠ [] → findMarker s.buf = none →
      exec .finish s = .next { s with buf := [], status := s.status ||| 0x01#8,
                                      out := s.out ++ [.noiseDiscarded s.buf] }) ∧
    (∀ i, findMarker s.buf = some i →
      exec .finish s = .next { s with buf := [], status := s.status ||| 0x01#8,
                                      out := s.out ++ [.incompleteFrame s.buf] }))

/-- 43_control.md R124: RESET, and its word `0x300`, in every state: the state after it is the state after `rst` except for
`OUT`, which stays; the parameters and the inputs still to come stay, no byte is held. -/
def Obligations.ResetStartsAFreshInstance : Prop :=
  (∀ s : State, exec .reset s = .next { s with buf := [], crc := 0xFFFF#16, status := 0x00#8 } ∧
    acceptWord 0x300#12 s = exec .reset s) ∧
  (∀ s t : State, exec .reset s = .next t →
    t.out = s.out ∧ t.params = s.params ∧ t.inbox = s.inbox ∧ (∀ a, readByte t.buf a = none) ∧
    { t with out := [], inbox := [] } = State.resetWith s.params ∧
    (stopped t.status = false ∧ getFlag .ill t.status = false ∧ getFlag .late t.status = false))

/-! ### Frames -/

/-- The frame of NOP, CRC_INIT and CRC_BYTE: they never touch `BUF`, `STATUS` or `OUT` (40_crc_engine.md R79), nor the
parameters and the host's inputs; NOP leaves `CRC` too. Every byte of the buffer reads as before. -/
def Obligations.CrcCommandsFrame : Prop :=
  ∀ (i : Instr) (s t : State), (i = .nop ∨ i = .crcInit ∨ ∃ d, i = .crcByte d) → exec i s = .next t →
    (∀ a, readByte t.buf a = readByte s.buf a) ∧ t.status = s.status ∧ t.out = s.out ∧
    t.params = s.params ∧ t.inbox = s.inbox ∧ (i = .nop → t.crc = s.crc)

/-- The frame of FEED and FINISH: `CRC` is never written (40_crc_engine.md R79), nor the parameters and the inputs; of
`STATUS` only `OVF` and `LATE` (FEED), `DONE` and `LATE` (FINISH) may change (10_state.md R20); the trace is only
extended (10_state.md R21). Memory (10_state.md R17): after FEED the bytes held are the last ones of the old bytes, or of
the old bytes with d behind them, so a byte at address a now is the byte that stood at a plus what was dropped; after
FINISH they are the old bytes or none. -/
def Obligations.StreamCommandsFrame : Prop :=
  (∀ (s t : State) (d : Byte), exec (.feed d) s = .next t →
    t.crc = s.crc ∧ t.params = s.params ∧ t.inbox = s.inbox ∧ s.out <+: t.out ∧
    (∀ k, k ≠ 1 → k ≠ 3 → t.status.getLsbD k = s.status.getLsbD k) ∧
    (stopped s.status = true ∨ s.params.cap = .bounded s.buf.length →
      ∀ a, readByte t.buf a = readByte s.buf a) ∧
    (stopped s.status = false → s.params.cap ≠ .bounded s.buf.length →
      t.buf.length ≤ s.buf.length + 1 ∧
      ∀ a, readByte t.buf a = readByte (s.buf ++ [d]) (a + (s.buf.length + 1 - t.buf.length)))) ∧
  (∀ s t : State, exec .finish s = .next t →
    t.crc = s.crc ∧ t.params = s.params ∧ t.inbox = s.inbox ∧ s.out <+: t.out ∧
    (∀ k, k ≠ 0 → k ≠ 3 → t.status.getLsbD k = s.status.getLsbD k) ∧
    (stopped s.status = true → ∀ a, readByte t.buf a = readByte s.buf a) ∧
    (stopped s.status = false → ∀ a, readByte t.buf a = none))

/-! ### Whole-machine rules -/

/-- The invariant holds in the state after `rst` of every machine with legal parameters (10_state.md R24, R28). -/
def Obligations.ResetStateSatisfiesInvariant : Prop :=
  ∀ p : Params, p.wf = true → Inv (State.resetWith p)

/-- Every step keeps the invariant: legal parameters, `|BUF|` ≤ `CAP`, `Q(BUF)`, reserved status bits 0, `DONE` and
`OVF` never both, an empty buffer after FINISH, a full one after overflow, every report truthful (10_state.md R20, R24;
42_reassembler.md R112; 60_exceptions.md R131, R139, R142); and no step, from any state, changes the parameters
(70_reset_and_hazards.md R154). -/
def Obligations.EveryStepKeepsTheInvariant : Prop :=
  (∀ s t : State, Inv s → step s = .next t → Inv t) ∧
  (∀ s t : State, step s = .next t → t.params = s.params)

/-- 10_state.md R20: which command writes which flag, and that no command but RESET clears one. -/
def Obligations.OnlyResetClearsFlags : Prop :=
  (∀ (i : Instr) (s t : State), exec i s = .next t →
    (∀ f, i ≠ .reset → getFlag f s.status = true → getFlag f t.status = true) ∧
    (getFlag .done s.status = false → getFlag .done t.status = true → i = .finish) ∧
    (getFlag .ovf s.status = false → getFlag .ovf t.status = true → ∃ d, i = .feed d) ∧
    (getFlag .late s.status = false → getFlag .late t.status = true → i = .finish ∨ ∃ d, i = .feed d) ∧
    (getFlag .ill s.status = false → getFlag .ill t.status = false) ∧
    (i = .reset → t.status = 0x00#8))

/-- 60_exceptions.md R144: the only ways back from `DONE` and `OVF` to a running reassembler are RESET and `rst`; both
discard the buffer unreported. -/
def Obligations.OnlyResetsRestartTheReassembler : Prop :=
  ∀ s t : State, step s = .next t → stopped s.status = true → stopped t.status = false →
    (∃ rest, s.inbox = .rst :: rest ∧ t.buf = [] ∧ t.out = []) ∨
    (∃ rest, s.inbox = .cmd 0x300#12 :: rest ∧ t.buf = [] ∧ t.out = s.out)

/-- 60_exceptions.md R142: while `OVF` = 1 every word but RESET leaves the buffer, the trace and `OVF` as they are, and
`level_q` shows `CAP` and `phase_q` the phase of the frozen buffer. -/
def Obligations.OverflowFreezesTheBuffer : Prop :=
  ∀ (s t : State) (w : CmdWord), Inv s → getFlag .ovf s.status = true → w ≠ 0x300#12 →
    acceptWord w s = .next t →
    t.buf = s.buf ∧ t.out = s.out ∧ getFlag .ovf t.status = true ∧
    s.params.cap = .bounded (outputsOf t).levelQ ∧
    (outputsOf t).phaseQ = phaseCode (phaseOf s.params s.buf)

/-- 10_state.md R21: nothing removes or reorders the trace's elements; only `rst` starts a new one. -/
def Obligations.TraceOnlyGrows : Prop :=
  ∀ s t : State, step s = .next t → (∀ rest, s.inbox ≠ .rst :: rest) → s.out <+: t.out

/-- 42_reassembler.md R113: one command emits at most one event. -/
def Obligations.OneCommandEmitsAtMostOneEvent : Prop :=
  ∀ (s t : State) (w : CmdWord), Inv s → acceptWord w s = .next t →
    ∃ ev : List Event, t.out = s.out ++ ev ∧ ev.length ≤ 1 ∧
      (ev ≠ [] → decode w = .ok .finish ∨ ∃ d, decode w = .ok (.feed d))

/-- 10_state.md R23, R24: between commands `PHASE` is 0, 1 or 2, and the three disjuncts of `Q` are the phases
`SEEK_SYNC`, `AWAIT_LENGTH`, `AWAIT_PAYLOAD`. -/
def Obligations.PhaseOfAQuiescentBuffer : Prop :=
  ∀ (p : Params) (b : List Byte), quiescent p b = true →
    (phaseOf p b = .seekSync ∧ findMarker b = none) ∨
    (phaseOf p b = .awaitLength ∧ startsWithMarker b = true ∧ b.length < 4) ∨
    (phaseOf p b = .awaitPayload ∧ startsWithMarker b = true ∧
      ∃ length, readHalf b 2 = some length ∧ length.toNat ≤ p.maxItems.val ∧
        b.length < 4 + 2 * length.toNat + 2)

/-- 10_state.md R22: `level_q` fits its width, which is the least W with 2^W > `CAP`. -/
def Obligations.LevelFitsItsWidth : Prop :=
  (∀ (c W : Nat), levelWidth (.bounded c) = some W → c < 2 ^ W ∧ ∀ V, c < 2 ^ V → W ≤ V) ∧
  (∀ (s : State) (W : Nat), Inv s → levelWidth s.params.cap = some W → (outputsOf s).levelQ < 2 ^ W)

/-! ### The CRC engine -/

/-- 40_crc_engine.md R70: `CrcBit`, bit by bit. -/
def Obligations.CrcBitByItsBits : Prop :=
  ∀ (c : Half) (b : Bool) (i : Nat), i < 16 →
    (crcBit c b).getLsbD i =
      (if i = 0 then c.getLsbD 15 ^^ b
       else if i = 5 then c.getLsbD 4 ^^ (c.getLsbD 15 ^^ b)
       else if i = 12 then c.getLsbD 11 ^^ (c.getLsbD 15 ^^ b)
       else c.getLsbD (i - 1))

/-- 40_crc_engine.md R71: `CrcByte` feeds the bits of d, most significant first; and the worked example. -/
def Obligations.CrcByteFeedsBitsMsbFirst : Prop :=
  (∀ (c : Half) (d : Byte),
    crcStep c d = [7, 6, 5, 4, 3, 2, 1, 0].foldl (fun c k => crcBit c (d.getLsbD k)) c) ∧
  crcStep 0xFFFF#16 0x31#8 = 0xC782#16

/-- 40_crc_engine.md R72: the XOR-first form, the table form with the entries the rule prints, and linearity. -/
def Obligations.CrcByteEquivalentForms : Prop :=
  (∀ (c : Half) (d : Byte), crcStepXorFirst c d = crcStep c d) ∧
  (∀ (c : Half) (d : Byte), crcStepTable c d = crcStep c d) ∧
  ((List.range 16).map fun i => crcTable (BitVec.ofNat 8 i)) =
    [0x0000#16, 0x1021#16, 0x2042#16, 0x3063#16, 0x4084#16, 0x50A5#16, 0x60C6#16, 0x70E7#16,
     0x8108#16, 0x9129#16, 0xA14A#16, 0xB16B#16, 0xC18C#16, 0xD1AD#16, 0xE1CE#16, 0xF1EF#16] ∧
  [crcTable 0x10#8, crcTable 0x20#8, crcTable 0x40#8, crcTable 0x80#8, crcTable 0xFF#8] =
    [0x1231#16, 0x2462#16, 0x48C4#16, 0x9188#16, 0x1EF0#16] ∧
  (∀ (a b : Half) (d e : Byte), crcStep (a ^^^ b) (d ^^^ e) = crcStep a d ^^^ crcStep b e)

/-- 40_crc_engine.md R73, R74: `CrcSpan` is the fold of `CrcByte`, a concatenation is fed in any chunks; `Crc16` is the
span from `0xFFFF`; the empty input and the reference value. -/
def Obligations.ChecksumIsChunkIndependent : Prop :=
  (∀ c : Half, crcSpan c [] = c) ∧
  (∀ (c : Half) (d : Byte) (s : List Byte), crcSpan c (d :: s) = crcSpan (crcStep c d) s) ∧
  (∀ (c : Half) (s t : List Byte), crcSpan c (s ++ t) = crcSpan (crcSpan c s) t) ∧
  (∀ s : List Byte, crc16 s = crcSpan 0xFFFF#16 s) ∧ crc16 [] = 0xFFFF#16 ∧
  crc16 [0x31#8, 0x32#8, 0x33#8, 0x34#8, 0x35#8, 0x36#8, 0x37#8, 0x38#8, 0x39#8] = 0x29B1#16

/-- 40_crc_engine.md R75: `CrcSpan(c, s)`(x) = ( c(x)·x^(8n) + M(x)·x^16 ) mod G(x) over GF(2). -/
def Obligations.CrcIsPolynomialRemainder : Prop :=
  ∀ (c : Half) (s : List Byte),
    bitsPoly (crcSpan c s) =
      (bitsPoly c * Polynomial.X ^ (8 * s.length) + bytesPoly s * Polynomial.X ^ 16) %ₘ crcGenerator

/-! ### The frame codec and the validator -/

/-- 41_frame_codec.md R82: `FrameLen(length)` is even and in 6..131076; an encoded payload has that many bytes (R83). -/
def Obligations.FrameLengthOfAPayload : Prop :=
  (∀ length, length ≤ 65535 →
    frameLen length = 4 + 2 * length + 2 ∧ 6 ≤ frameLen length ∧ frameLen length ≤ 131076 ∧
      frameLen length % 2 = 0) ∧
  (∀ (p : List Half) (f : List Byte), encodeFrame p = some f → f.length = frameLen p.length)

/-- 41_frame_codec.md R84, R85: `Decode` answers `Ok` exactly on a structurally well-formed sequence whose
recomputed checksum matches the received one, `ChecksumMismatch` exactly on a structurally well-formed one whose
checksums differ, with the recomputed value as `expected`, and `MalformedFrame` exactly on the others; every error
carries its whole input. The reason of `MalformedFrame` is the first structural test of R85 that fails: the marker, then
fewer than 4 bytes or not the total the length field asks for, then the length above `MAX_ITEMS`. -/
def Obligations.DecodeOutcomesCharacterised : Prop :=
  ∀ (p : Params) (b : List Byte),
    let wellFormed (length received : Half) : Prop :=
      startsWithMarker b = true ∧ readHalf b 2 = some length ∧ b.length = 4 + 2 * length.toNat + 2 ∧
      length.toNat ≤ p.maxItems.val ∧ readHalf b (b.length - 2) = some received
    (∀ f : Frame, decodeFrame p b = .ok f ↔
      wellFormed f.length f.checksum ∧ crc16 (b.take (b.length - 2)) = f.checksum ∧
      f.payload = itemsOf ((b.drop 4).take (2 * f.length.toNat))) ∧
    (∀ (expected received : Half) (raw : List Byte),
      decodeFrame p b = .checksumMismatch expected received raw ↔
        raw = b ∧ (∃ length, wellFormed length received) ∧
        expected = crc16 (b.take (b.length - 2)) ∧ expected ≠ received) ∧
    (∀ (reason : Reason) (raw : List Byte), decodeFrame p b = .malformedFrame reason raw →
      raw = b ∧ ¬ ∃ length received, wellFormed length received) ∧
    ((¬ ∃ length received, wellFormed length received) →
      ∃ reason, decodeFrame p b = .malformedFrame reason b) ∧
    let marked : Prop := b[0]? = some 0xBE#8 ∧ b[1]? = some 0xEF#8
    (decodeFrame p b = .malformedFrame .markerMissing b ↔ ¬ marked) ∧
    (decodeFrame p b = .malformedFrame .lengthInconsistent b ↔
      marked ∧ (b.length < 4 ∨
        ∃ length, readHalf b 2 = some length ∧ b.length ≠ 4 + 2 * length.toNat + 2)) ∧
    (decodeFrame p b = .malformedFrame .lengthBounds b ↔
      marked ∧ ∃ length, readHalf b 2 = some length ∧ b.length = 4 + 2 * length.toNat + 2 ∧
        p.maxItems.val < length.toNat)

/-- 41_frame_codec.md R92: the round trip of the wire format. -/
def Obligations.FrameCodecRoundTrip : Prop :=
  ∀ (q : Params) (p : List Half), p.length ≤ q.maxItems.val →
    ∃ f, encodeFrame p = some f ∧
      decodeFrame q f = .ok { length := BitVec.ofNat 16 p.length, payload := p,
                              checksum := crc16 (frameBody p) }

/-- 41_frame_codec.md R93: one changed payload byte is always detected. -/
def Obligations.OneChangedPayloadByteIsDetected : Prop :=
  ∀ (q : Params) (p : List Half) (f : List Byte) (k : Nat) (x : Byte),
    p.length ≤ q.maxItems.val → encodeFrame p = some f → 4 ≤ k → k + 2 < f.length → f[k]? ≠ some x →
    ∃ expected, expected ≠ crc16 (frameBody p) ∧
      decodeFrame q (f.set k x) = .checksumMismatch expected (crc16 (frameBody p)) (f.set k x)

/-- 41_frame_codec.md R94: the residue of a valid frame is zero, and testing the residue for zero is the validator's comparison. -/
def Obligations.ResidueTestIsTheComparison : Prop :=
  (∀ (p : List Half) (f : List Byte), encodeFrame p = some f → crc16 f = 0x0000#16) ∧
  (∀ (b : List Byte) (v : Validation), validate b = some v → residueTest b = checksumMatches v)

/-! ### The reassembler -/

/-- 42_reassembler.md R96: `FindMarker` is the least index of the marker, or none; and the rule's useful fact, how it
answers on a longer sequence. -/
def Obligations.FindMarkerIsLeastOccurrence : Prop :=
  (∀ b : List Byte,
    (∀ i, findMarker b = some i ↔
      (b[i]? = some 0xBE#8 ∧ b[i + 1]? = some 0xEF#8) ∧
      ∀ j, j < i → ¬ (b[j]? = some 0xBE#8 ∧ b[j + 1]? = some 0xEF#8)) ∧
    (findMarker b = none ↔ ∀ j, ¬ (b[j]? = some 0xBE#8 ∧ b[j + 1]? = some 0xEF#8))) ∧
  (∀ (b c : List Byte) (i : Nat), findMarker b = some i → findMarker (b ++ c) = some i) ∧
  (∀ (b : List Byte) (d : Byte), findMarker b = none →
    findMarker (b ++ [d]) =
      if b.getLast? = some 0xBE#8 ∧ d = 0xEF#8 then some (b.length - 1) else none)

/-- 42_reassembler.md R106: a rolling scan cursor that skips positions already known to hold no marker finds the same index. -/
def Obligations.RollingCursorFindsTheSameMarker : Prop :=
  ∀ (b : List Byte) (k : Nat), findMarker (b.take (k + 1)) = none → findMarkerFrom k b = findMarker b

/-- 42_reassembler.md R104: `Drain`, case by case, as the loop says. -/
def Obligations.DrainFollowsTheLoop : Prop :=
  ∀ (p : Params) (b : List Byte),
    (findMarker b = none → drain p b = ([], b)) ∧
    ∀ idx, findMarker b = some idx →
      let ev : List Event := if 0 < idx then [.noiseDiscarded (b.take idx)] else []
      let c := b.drop idx
      (c.length < 4 → drain p b = (ev, c)) ∧
      ∀ length, readHalf c 2 = some length →
        let total := 4 + 2 * length.toNat + 2
        (p.maxItems.val < length.toNat →
          drain p b = (ev ++ .malformedFrame .lengthBounds (c.take 4) :: (drain p (c.drop 4)).1,
                       (drain p (c.drop 4)).2)) ∧
        (length.toNat ≤ p.maxItems.val → c.length < total → drain p b = (ev, c)) ∧
        (length.toNat ≤ p.maxItems.val → total ≤ c.length →
          drain p b = (ev ++ eventOf (decodeFrame p (c.take total)) (c.take total) :: (drain p (c.drop total)).1,
                       (drain p (c.drop total)).2))

/-- 42_reassembler.md R105: ⌊|b|/4⌋ + 1 turns are always enough, and each turn that continues loses at least 4 bytes. -/
def Obligations.DrainTurnsAreBounded : Prop :=
  (∀ (p : Params) (b b' : List Byte) (ev : List Event), drainTurn p b = .again ev b' →
    b'.length + 4 ≤ b.length) ∧
  (∀ (p : Params) (b : List Byte) (n : Nat), b.length / 4 + 1 ≤ n → drainFuel p n b = drain p b)

/-- 42_reassembler.md R112: what `Drain` leaves is quiescent, and a quiescent buffer drains no further. -/
def Obligations.DrainLeavesAQuiescentBuffer : Prop :=
  ∀ (p : Params) (b : List Byte),
    quiescent p (drain p b).2 = true ∧ (quiescent p b = true → drain p b = ([], b))

/-- 42_reassembler.md R107: the transition table of FEED, row by row. -/
def Obligations.FeedFollowsTheTransitionTable : Prop :=
  ∀ (s : State) (d : Byte), stopped s.status = false → s.params.cap ≠ .bounded s.buf.length →
    quiescent s.params s.buf = true →
    let b := s.buf
    let n := s.buf.length
    let becomes (ev : List Event) (b' : List Byte) (ph : Phase) : Prop :=
      exec (.feed d) s = .next { s with buf := b', out := s.out ++ ev } ∧ phaseOf s.params b' = ph
    (phaseOf s.params b = .seekSync →
      (b.getLast? = some 0xBE#8 → d = 0xEF#8 → n = 1 → becomes [] [0xBE#8, 0xEF#8] .awaitLength) ∧
      (b.getLast? = some 0xBE#8 → d = 0xEF#8 → 2 ≤ n →
        becomes [.noiseDiscarded (b.take (n - 1))] [0xBE#8, 0xEF#8] .awaitLength) ∧
      (¬ (b.getLast? = some 0xBE#8 ∧ d = 0xEF#8) → becomes [] (b ++ [d]) .seekSync)) ∧
    (phaseOf s.params b = .awaitLength →
      (n = 2 → becomes [] (b ++ [d]) .awaitLength) ∧
      (∀ hi, n = 3 → b[2]? = some hi → (BE16 hi d).toNat ≤ s.params.maxItems.val →
        becomes [] (b ++ [d]) .awaitPayload) ∧
      (∀ hi, n = 3 → b[2]? = some hi → s.params.maxItems.val < (BE16 hi d).toNat →
        becomes [.malformedFrame .lengthBounds (b ++ [d])] [] .seekSync) ∧
      (n = 2 ∨ n = 3)) ∧
    (phaseOf s.params b = .awaitPayload →
      ∃ length, readHalf b 2 = some length ∧
        (n + 1 < 4 + 2 * length.toNat + 2 → becomes [] (b ++ [d]) .awaitPayload) ∧
        (n + 1 = 4 + 2 * length.toNat + 2 →
          becomes [eventOf (decodeFrame s.params (b ++ [d])) (b ++ [d])] [] .seekSync) ∧
        n + 1 ≤ 4 + 2 * length.toNat + 2) ∧
    phaseOf s.params b ≠ .frameReady

/-- 42_reassembler.md R114: chunk-size invariance of `Drain`, for all events. -/
def Obligations.ChunkSizeInvariance : Prop :=
  ∀ (p : Params) (b c1 c2 r1 r2 : List Byte) (v1 v2 : List Event),
    drain p (b ++ c1) = (v1, r1) → drain p (r1 ++ c2) = (v2, r2) →
    drain p (b ++ c1 ++ c2) = (v1 ++ v2, r2)

/-- 42_reassembler.md R111, R114: feeding a chunk byte by byte gives the events and the buffer of one `FeedChunk`. -/
def Obligations.SerialFeedEqualsFeedChunk : Prop :=
  ∀ (s : State) (c : List Byte), stopped s.status = false → quiescent s.params s.buf = true →
    s.params.cap.admits (s.buf.length + c.length) = true →
    runInstrs (c.map .feed) s =
      .next { s with buf := (feedChunk s.params s.buf c).2, out := s.out ++ (feedChunk s.params s.buf c).1 }

/-- 42_reassembler.md R115, 60_exceptions.md R143: byte conservation. While no overflow has happened, the raw bytes of the
reports in order and then the bytes still held are the bytes fed; after FINISH nothing is held. -/
def Obligations.EveryByteIsReportedOnce : Prop :=
  ∀ (s t : State) (bytes : List Byte), stopped s.status = false →
    (runInstrs (bytes.map .feed) s = .next t → getFlag .ovf t.status = false →
      ∃ ev, t.out = s.out ++ ev ∧ (ev.map eventRaw).flatten ++ t.buf = s.buf ++ bytes) ∧
    (runInstrs (bytes.map .feed ++ [.finish]) s = .next t → getFlag .ovf t.status = false →
      ∃ ev, t.out = s.out ++ ev ∧ (ev.map eventRaw).flatten = s.buf ++ bytes ∧ t.buf = [] ∧
        getFlag .done t.status = true)

/-- 42_reassembler.md R116: bytes without a marker never yield a candidate event: they are held, and FINISH reports them
as one `NoiseDiscarded`, or a full buffer overflows. -/
def Obligations.NoiseIsHeldAndReportedWhole : Prop :=
  ∀ (s : State) (bytes : List Byte), stopped s.status = false → findMarker (s.buf ++ bytes) = none →
    (s.params.cap.admits (s.buf.length + bytes.length) = true →
      runInstrs (bytes.map .feed) s = .next { s with buf := s.buf ++ bytes } ∧
      runInstrs (bytes.map .feed ++ [.finish]) s =
        .next { s with buf := [], status := s.status ||| 0x01#8, out := s.out ++ noiseReport (s.buf ++ bytes) }) ∧
    (∀ c, s.params.cap = .bounded c → s.buf.length ≤ c → c < s.buf.length + bytes.length →
      ∃ t, runInstrs (bytes.map .feed) s = .next t ∧ t.out = s.out ++ [.bufferOverflow] ∧
        t.buf = (s.buf ++ bytes).take c ∧ getFlag .ovf t.status = true)

/-- 42_reassembler.md R117: resynchronisation, with the rule's condition on the noise and on `CAP`. -/
def Obligations.FramesAreRecoveredFromNoise : Prop :=
  ∀ (s : State) (a b : List Half) (fa fb n1 n2 : List Byte),
    stopped s.status = false → s.buf = [] → encodeFrame a = some fa → encodeFrame b = some fb →
    a.length ≤ s.params.maxItems.val → b.length ≤ s.params.maxItems.val →
    findMarker n1 = none → findMarker n2 = none →
    s.params.cap.admits (n1.length + 2) = true → s.params.cap.admits (n2.length + 2) = true →
    s.params.cap.admits (frameLen a.length) = true → s.params.cap.admits (frameLen b.length) = true →
    runInstrs ((n1 ++ fa ++ n2 ++ fb).map .feed) s =
      .next { s with out := s.out ++ (noiseReport n1 ++ [decodedReport a fa] ++
                                       noiseReport n2 ++ [decodedReport b fb]) }

/-- 42_reassembler.md R118: a truncated second frame and FINISH; the premise on `CAP`, which the rule does not name, keeps
the tail from overflowing. -/
def Obligations.TruncatedTailIsReportedAtFinish : Prop :=
  ∀ (s : State) (a b : List Half) (fa fb tail : List Byte),
    stopped s.status = false → s.buf = [] → encodeFrame a = some fa → encodeFrame b = some fb →
    a.length ≤ s.params.maxItems.val → b.length ≤ s.params.maxItems.val →
    tail <+: fb → tail.length < fb.length →
    s.params.cap.admits (frameLen a.length) = true → s.params.cap.admits tail.length = true →
    runInstrs ((fa ++ tail).map .feed ++ [.finish]) s =
      .next { s with buf := [], status := s.status ||| 0x01#8,
                     out := s.out ++ [decodedReport a fa] ++
                       (if tail.length = 0 then []
                        else if tail.length = 1 then [.noiseDiscarded tail]
                        else [.incompleteFrame tail]) }

/-- 42_reassembler.md R120: a payload byte changed in flight gives `ChecksumMismatch` with `expected` ≠ `received`, and the
frame behind it is decoded normally. -/
def Obligations.CorruptedFrameDoesNotStopTheStream : Prop :=
  ∀ (s : State) (a b : List Half) (fa fb : List Byte) (k : Nat) (x : Byte),
    stopped s.status = false → s.buf = [] → encodeFrame a = some fa → encodeFrame b = some fb →
    a.length ≤ s.params.maxItems.val → b.length ≤ s.params.maxItems.val →
    s.params.cap.admits (frameLen a.length) = true → s.params.cap.admits (frameLen b.length) = true →
    4 ≤ k → k + 2 < fa.length → fa[k]? ≠ some x →
    ∃ expected, expected ≠ crc16 (frameBody a) ∧
      runInstrs ((fa.set k x ++ fb).map .feed) s =
        .next { s with out := s.out ++ [.checksumMismatch expected (crc16 (frameBody a)) (fa.set k x),
                                        decodedReport b fb] }

/-- 42_reassembler.md R121: back-to-back frames are each extracted, with no `NoiseDiscarded` between them, by one
`FeedChunk` and by the byte-serial hardware alike. -/
def Obligations.BackToBackFramesAreEachDecoded : Prop :=
  (∀ (q : Params) (ps : List (List Half)), (∀ p ∈ ps, p.length ≤ q.maxItems.val) →
    drain q (ps.flatMap frameOf) = (ps.map fun p => decodedReport p (frameOf p), [])) ∧
  (∀ (s : State) (ps : List (List Half)), stopped s.status = false → s.buf = [] →
    (∀ p ∈ ps, p.length ≤ s.params.maxItems.val ∧ s.params.cap.admits (frameLen p.length) = true) →
    runInstrs ((ps.flatMap frameOf).map .feed) s =
      .next { s with out := s.out ++ ps.map fun p => decodedReport p (frameOf p) })

/-- Occupancy, 42_reassembler.md R122: a stream whose marker-free runs have at most m bytes and whose candidates have
`FrameLen` at most F keeps `LEVEL` ≤ max(m, F), and never overflows where `CAP` ≥ max(m + 2, F). Whatever the stream,
`FrameLen(MAX_ITEMS)` is such an F. -/
def Obligations.EnoughRoomNeverOverflows : Prop :=
  (∀ (s : State) (bytes : List Byte) (m F : Nat), stopped s.status = false → s.buf = [] →
    (∀ pre run post, bytes = pre ++ run ++ post → findMarker run = none → run.length ≤ m) →
    candidatesWithin s.params bytes F →
    s.params.cap.admits (m + 2) = true → s.params.cap.admits F = true →
    ∃ t, runInstrs (bytes.map .feed) s = .next t ∧ t.status = s.status ∧ t.buf.length ≤ max m F) ∧
  (∀ (p : Params) (bytes : List Byte), candidatesWithin p bytes (frameLen p.maxItems.val))

/-- 30_encoding.md R66: the expansion of every pseudo-command, and what a host gets from it: FEEDCHUNK of some bytes does
what `FeedChunk` does (42_reassembler.md R111, R114), with no bytes it is FINISH, CRC_COMPUTE leaves `compute(bytes)` in
`CRC`, SENDFRAME into an empty running reassembler with room is decoded, NEW is RESET. -/
def Obligations.PseudoCommandsDoWhatTheyStandFor : Prop :=
  (∀ bytes : List Byte, bytes ≠ [] → expandPseudo (.feedChunk bytes) = some (bytes.map .feed)) ∧
  expandPseudo (.feedChunk []) = some [.finish] ∧
  (∀ bytes : List Byte, expandPseudo (.crcCompute bytes) = some (.crcInit :: bytes.map .crcByte)) ∧
  (∀ (p : List Half) (f : List Byte), encodeFrame p = some f →
    expandPseudo (.sendFrame p) = some (f.map .feed)) ∧
  expandPseudo .new = some [.reset] ∧
  (∀ (s : State) (bytes : List Byte), bytes ≠ [] → stopped s.status = false →
    quiescent s.params s.buf = true → s.params.cap.admits (s.buf.length + bytes.length) = true →
    ∃ is, expandPseudo (.feedChunk bytes) = some is ∧
      runInstrs is s = .next { s with buf := (feedChunk s.params s.buf bytes).2,
                                      out := s.out ++ (feedChunk s.params s.buf bytes).1 }) ∧
  (∀ s : State, ∃ is, expandPseudo (.feedChunk []) = some is ∧ runInstrs is s = exec .finish s) ∧
  (∀ (s : State) (bytes : List Byte), ∃ is, expandPseudo (.crcCompute bytes) = some is ∧
    runInstrs is s = .next { s with crc := crc16 bytes }) ∧
  (∀ (s : State) (p : List Half), (Pseudo.sendFrame p).wf = true → stopped s.status = false → s.buf = [] →
    p.length ≤ s.params.maxItems.val → s.params.cap.admits (frameLen p.length) = true →
    ∃ is, expandPseudo (.sendFrame p) = some is ∧
      runInstrs is s = .next { s with out := s.out ++ [decodedReport p (frameOf p)] }) ∧
  (∀ s : State, ∃ is, expandPseudo .new = some is ∧ runInstrs is s = exec .reset s)

/-! ### The event port -/

/-- 30_encoding.md R58, R59, R60, R61: the bytes of each of the six packets, with the event codes and the reason codes as
the tables print them; a packet carries its event's bytes, the first symbol alone has `sop`, the last alone `eop`; and the
eleven symbols of R60's example. -/
def Obligations.PacketsAreDelimited : Prop :=
  (∀ e : Event, (packetOf e).length = (packetBytes e).length ∧ packetOf e ≠ [] ∧
    ∀ (i : Nat) (x : Symbol), (packetOf e)[i]? = some x →
      symbolSop x = decide (i = 0) ∧ symbolEop x = decide (i + 1 = (packetOf e).length) ∧
      (packetBytes e)[i]? = some (symbolByte x)) ∧
  (∀ (length : Half) (payload : List Half) (checksum : Half) (raw : List Byte),
    packetBytes (.frameDecoded length payload checksum raw) = 0x01#8 :: raw.drop 2) ∧
  (∀ (p : List Half) (f : List Byte), encodeFrame p = some f →
    packetBytes (decodedReport p f) =
      0x01#8 :: (be16 (BitVec.ofNat 16 p.length) ++ be16s p ++ be16 (crc16 (frameBody p)))) ∧
  (∀ (expected received : Half) (raw : List Byte),
    packetBytes (.checksumMismatch expected received raw) =
      0x02#8 :: expected.extractLsb' 8 8 :: expected.extractLsb' 0 8 ::
        received.extractLsb' 8 8 :: received.extractLsb' 0 8 :: raw) ∧
  (∀ raw : List Byte,
    packetBytes (.malformedFrame .markerMissing raw) = 0x03#8 :: 0x01#8 :: raw ∧
    packetBytes (.malformedFrame .lengthInconsistent raw) = 0x03#8 :: 0x02#8 :: raw ∧
    packetBytes (.malformedFrame .lengthBounds raw) = 0x03#8 :: 0x03#8 :: raw ∧
    packetBytes (.noiseDiscarded raw) = 0x04#8 :: raw ∧
    packetBytes (.incompleteFrame raw) = 0x05#8 :: raw) ∧
  packetBytes .bufferOverflow = [0x06#8] ∧
  packetOf (decodedReport [0x0001#16, 0x0002#16, 0x0003#16] (frameOf [0x0001#16, 0x0002#16, 0x0003#16])) =
    [0x201#10, 0x000#10, 0x003#10, 0x000#10, 0x001#10, 0x000#10, 0x002#10, 0x000#10, 0x003#10, 0x062#10, 0x171#10]

/-- 30_encoding.md R60, R62: in every state that meets the invariant, the receiver recovers the whole event trace from
the symbols on the event port. -/
def Obligations.ReceiverRecoversTheTrace : Prop :=
  ∀ s : State, Inv s → receive none (symbolsOf s.out) = some s.out

/-- 30_encoding.md R60, R62: the packet lengths and their bounds. The bound on a `NoiseDiscarded` packet is R62's, `CAP` +
1, none when `CAP` = `UNBOUNDED`, and not the smaller one of the last sentence of 42_reassembler.md R113 (the model's
choice, log 19). -/
def Obligations.PacketLengthBounds : Prop :=
  ∀ (s : State) (e : Event), Inv s → e ∈ s.out →
    match e with
    | .frameDecoded length _ _ _ =>
        (packetOf e).length = 5 + 2 * length.toNat ∧ 5 ≤ (packetOf e).length ∧ (packetOf e).length ≤ 131075
    | .checksumMismatch .. => 11 ≤ (packetOf e).length ∧ (packetOf e).length ≤ 131081
    | .malformedFrame reason _ => reason = .lengthBounds ∧ (packetOf e).length = 6
    | .noiseDiscarded _ =>
        2 ≤ (packetOf e).length ∧ s.params.cap.admits ((packetOf e).length - 1) = true
    | .incompleteFrame _ =>
        3 ≤ (packetOf e).length ∧ s.params.cap.admits ((packetOf e).length - 1) = true
    | .bufferOverflow => (packetOf e).length = 1

/-- 30_encoding.md R58, 70_reset_and_hazards.md R160: no symbol is dropped or reordered: what has been sent and what waits
are together the packets of the trace; no new command is taken while a symbol waits; and when the sink takes every
symbol the command completes and the engine is ready again. -/
def Obligations.EventPortLosesNoSymbol : Prop :=
  (∀ (p q : PortState) (m : PortMove), p.sent ++ p.pending = symbolsOf p.core.out →
    portMove m p = .next q →
    q.sent ++ q.pending = symbolsOf q.core.out ∧ (m ≠ .rst → p.sent <+: q.sent)) ∧
  (∀ (p : PortState) (w : CmdWord), p.pending ≠ [] → portMove (.offer w) p = .next p) ∧
  (∀ p : PortState, ∃ q, portRun (List.replicate p.pending.length .sinkReady) p = .next q ∧
    cmdReady q = true ∧ q.core = p.core ∧ q.sent = p.sent ++ p.pending)

/-! ### The host -/

/-- 43_control.md R128: under a well-behaved host from reset, `ILL` stays 0, `LATE` stays 0 as long as the buffer has not
overflowed, and with `CAP` = `UNBOUNDED` `OVF` and `LATE` stay 0. How the rule's grammar is read is the model's (log 16). -/
def Obligations.WellBehavedHostIsNeverFlagged : Prop :=
  ∀ (p : Params) (ws : List CmdWord) (t : State), wellBehaved .fresh false ws = true →
    runWords ws (State.resetWith p) = .next t →
    getFlag .ill t.status = false ∧
    (getFlag .ovf t.status = false → getFlag .late t.status = false) ∧
    (p.cap = .unbounded → getFlag .ovf t.status = false ∧ getFlag .late t.status = false)
end

