-- ==== Sys2Proof/Laws/Flags.lean ====
section
/-! SUPPORT. Laws of the status flags (spec 10_state.md R19, R20; 30_encoding.md R63). -/

namespace Sys2Proof.Machine

/-- Setting a flag sets that flag and leaves the others. -/
@[simp] theorem getFlag_setFlag (f g : Flag) (st : Status) :
    getFlag f (setFlag g st) = (decide (f = g) || getFlag f st) := by
  cases f <;> cases g <;> simp [getFlag, setFlag, flagBit]

/-- Setting a flag never touches the reserved bits. -/
@[simp] theorem reservedBits_setFlag (g : Flag) (st : Status) :
    reservedBits (setFlag g st) = reservedBits st := by
  apply BitVec.eq_of_getLsbD_eq
  intro i hi
  cases g <;> interval_cases i <;> simp [reservedBits, setFlag, flagBit]

theorem setFlag_done (st : Status) : setFlag .done st = st ||| 0x01#8 := rfl
theorem setFlag_ovf (st : Status) : setFlag .ovf st = st ||| 0x02#8 := rfl
theorem setFlag_ill (st : Status) : setFlag .ill st = st ||| 0x04#8 := rfl
theorem setFlag_late (st : Status) : setFlag .late st = st ||| 0x08#8 := rfl

@[simp] theorem getFlag_zero (f : Flag) : getFlag f 0x00#8 = false := by
  cases f <;> rfl

/-- "Running" is `DONE` = 0 and `OVF` = 0 (43_control.md R126). -/
theorem stopped_eq_false_iff (st : Status) :
    stopped st = false ↔ getFlag .done st = false ∧ getFlag .ovf st = false := by
  simp [stopped]

theorem stopped_eq_true_iff (st : Status) :
    stopped st = true ↔ getFlag .done st = true ∨ getFlag .ovf st = true := by
  simp [stopped]

end Sys2Proof.Machine
end

