-- ==== Sys2Proof/Laws/State.lean ====
section
/-! SUPPORT. What each named operation leaves in each field of the state: one lemma per field per operation. -/

namespace Sys2Proof.Machine

@[simp] theorem bufAppend_params (d : Byte) (s : State) : (bufAppend d s).params = s.params := rfl
@[simp] theorem bufAppend_inbox (d : Byte) (s : State) : (bufAppend d s).inbox = s.inbox := rfl
@[simp] theorem bufAppend_buf (d : Byte) (s : State) : (bufAppend d s).buf = memAppend s.buf d := rfl
@[simp] theorem bufAppend_crc (d : Byte) (s : State) : (bufAppend d s).crc = s.crc := rfl
@[simp] theorem bufAppend_status (d : Byte) (s : State) : (bufAppend d s).status = s.status := rfl
@[simp] theorem bufAppend_out (d : Byte) (s : State) : (bufAppend d s).out = s.out := rfl

@[simp] theorem bufDrop_params (n : Nat) (s : State) : (bufDrop n s).params = s.params := rfl
@[simp] theorem bufDrop_inbox (n : Nat) (s : State) : (bufDrop n s).inbox = s.inbox := rfl
@[simp] theorem bufDrop_buf (n : Nat) (s : State) : (bufDrop n s).buf = memDrop s.buf n := rfl
@[simp] theorem bufDrop_crc (n : Nat) (s : State) : (bufDrop n s).crc = s.crc := rfl
@[simp] theorem bufDrop_status (n : Nat) (s : State) : (bufDrop n s).status = s.status := rfl
@[simp] theorem bufDrop_out (n : Nat) (s : State) : (bufDrop n s).out = s.out := rfl

@[simp] theorem raiseFlag_params (f : Flag) (s : State) : (raiseFlag f s).params = s.params := rfl
@[simp] theorem raiseFlag_inbox (f : Flag) (s : State) : (raiseFlag f s).inbox = s.inbox := rfl
@[simp] theorem raiseFlag_buf (f : Flag) (s : State) : (raiseFlag f s).buf = s.buf := rfl
@[simp] theorem raiseFlag_crc (f : Flag) (s : State) : (raiseFlag f s).crc = s.crc := rfl
@[simp] theorem raiseFlag_status (f : Flag) (s : State) : (raiseFlag f s).status = setFlag f s.status := rfl
@[simp] theorem raiseFlag_out (f : Flag) (s : State) : (raiseFlag f s).out = s.out := rfl

@[simp] theorem emit_params (e : Event) (s : State) : (emit e s).params = s.params := rfl
@[simp] theorem emit_inbox (e : Event) (s : State) : (emit e s).inbox = s.inbox := rfl
@[simp] theorem emit_buf (e : Event) (s : State) : (emit e s).buf = s.buf := rfl
@[simp] theorem emit_crc (e : Event) (s : State) : (emit e s).crc = s.crc := rfl
@[simp] theorem emit_status (e : Event) (s : State) : (emit e s).status = s.status := rfl
@[simp] theorem emit_out (e : Event) (s : State) : (emit e s).out = s.out ++ [e] := rfl

@[simp] theorem emitAll_params (ev : List Event) (s : State) : (emitAll ev s).params = s.params := rfl
@[simp] theorem emitAll_inbox (ev : List Event) (s : State) : (emitAll ev s).inbox = s.inbox := rfl
@[simp] theorem emitAll_buf (ev : List Event) (s : State) : (emitAll ev s).buf = s.buf := rfl
@[simp] theorem emitAll_crc (ev : List Event) (s : State) : (emitAll ev s).crc = s.crc := rfl
@[simp] theorem emitAll_status (ev : List Event) (s : State) : (emitAll ev s).status = s.status := rfl
@[simp] theorem emitAll_out (ev : List Event) (s : State) : (emitAll ev s).out = s.out ++ ev := rfl

@[simp] theorem raiseOverflow_params (s : State) : (raiseOverflow s).params = s.params := rfl
@[simp] theorem raiseOverflow_inbox (s : State) : (raiseOverflow s).inbox = s.inbox := rfl
@[simp] theorem raiseOverflow_buf (s : State) : (raiseOverflow s).buf = s.buf := rfl
@[simp] theorem raiseOverflow_crc (s : State) : (raiseOverflow s).crc = s.crc := rfl
@[simp] theorem raiseOverflow_status (s : State) : (raiseOverflow s).status = setFlag .ovf s.status := rfl
@[simp] theorem raiseOverflow_out (s : State) : (raiseOverflow s).out = s.out ++ [.bufferOverflow] := rfl

@[simp] theorem markLate_params (s : State) : (markLate s).params = s.params := rfl
@[simp] theorem markLate_inbox (s : State) : (markLate s).inbox = s.inbox := rfl
@[simp] theorem markLate_buf (s : State) : (markLate s).buf = s.buf := rfl
@[simp] theorem markLate_crc (s : State) : (markLate s).crc = s.crc := rfl
@[simp] theorem markLate_status (s : State) : (markLate s).status = setFlag .late s.status := rfl
@[simp] theorem markLate_out (s : State) : (markLate s).out = s.out := rfl

@[simp] theorem freshInstance_params (s : State) : (freshInstance s).params = s.params := rfl
@[simp] theorem freshInstance_inbox (s : State) : (freshInstance s).inbox = s.inbox := rfl
@[simp] theorem freshInstance_buf (s : State) : (freshInstance s).buf = [] := by
  simp [freshInstance, bufDrop, memDrop]
@[simp] theorem freshInstance_crc (s : State) : (freshInstance s).crc = 0xFFFF#16 := rfl
@[simp] theorem freshInstance_status (s : State) : (freshInstance s).status = 0x00#8 := rfl
@[simp] theorem freshInstance_out (s : State) : (freshInstance s).out = s.out := rfl

@[simp] theorem pinReset_params (s : State) : (pinReset s).params = s.params := rfl
@[simp] theorem pinReset_inbox (s : State) : (pinReset s).inbox = s.inbox := rfl
@[simp] theorem pinReset_buf (s : State) : (pinReset s).buf = [] := by
  simp [pinReset]
@[simp] theorem pinReset_crc (s : State) : (pinReset s).crc = 0xFFFF#16 := rfl
@[simp] theorem pinReset_status (s : State) : (pinReset s).status = 0x00#8 := rfl
@[simp] theorem pinReset_out (s : State) : (pinReset s).out = [] := rfl

@[simp] theorem offerFirst_params (x : HostInput) (s : State) : (offerFirst x s).params = s.params := rfl
@[simp] theorem offerFirst_inbox (x : HostInput) (s : State) : (offerFirst x s).inbox = x :: s.inbox := rfl
@[simp] theorem offerFirst_buf (x : HostInput) (s : State) : (offerFirst x s).buf = s.buf := rfl
@[simp] theorem offerFirst_crc (x : HostInput) (s : State) : (offerFirst x s).crc = s.crc := rfl
@[simp] theorem offerFirst_status (x : HostInput) (s : State) : (offerFirst x s).status = s.status := rfl
@[simp] theorem offerFirst_out (x : HostInput) (s : State) : (offerFirst x s).out = s.out := rfl

end Sys2Proof.Machine
end

