-- ==== Sys2Proof/Laws/Exec.lean ====
section
/-! SUPPORT. What a command, an accepted word and a step can do: one inversion lemma each, which later proofs cite instead of unfolding the machine. -/

namespace Sys2Proof.Machine

theorem bufferFull_iff (s : State) : bufferFull s = true ↔ s.params.cap = .bounded s.buf.length := by
  unfold bufferFull
  cases s.params.cap with
  | bounded c => simp only [beq_iff_eq, Capacity.bounded.injEq]; exact eq_comm
  | unbounded => simp

/-- The state FEED d leaves when it accepts the byte (42_reassembler.md R109). -/
def fedState (d : Byte) (s : State) : State :=
  emitAll (drain s.params (memAppend s.buf d)).1 { s with buf := (drain s.params (memAppend s.buf d)).2 }

/-- The state FINISH leaves on a running reassembler (42_reassembler.md R110). -/
def finishedState (s : State) : State :=
  raiseFlag .done (bufDrop s.buf.length (emitAll (residueEvents s.buf) s))

/-- What FEED does, in the order of its tests (60_exceptions.md R140). -/
theorem execFeed_cases (d : Byte) (s : State) :
    (stopped s.status = true ∧ execFeed d s = .next (markLate s)) ∨
    (stopped s.status = false ∧ s.params.cap = .bounded s.buf.length ∧
      execFeed d s = .next (raiseOverflow s)) ∨
    (stopped s.status = false ∧ s.params.cap ≠ .bounded s.buf.length ∧
      execFeed d s = .next (fedState d s)) := by
  unfold execFeed
  cases hs : stopped s.status with
  | true => exact .inl ⟨rfl, by simp⟩
  | false =>
    cases hf : bufferFull s with
    | true => exact .inr (.inl ⟨rfl, (bufferFull_iff s).mp hf, by simp⟩)
    | false =>
      refine .inr (.inr ⟨rfl, fun h => ?_, by simp [fedState]⟩)
      rw [(bufferFull_iff s).mpr h] at hf; cases hf

/-- What FINISH does (42_reassembler.md R108, R110). -/
theorem execFinish_cases (s : State) :
    (stopped s.status = true ∧ execFinish s = .next (markLate s)) ∨
    (stopped s.status = false ∧ execFinish s = .next (finishedState s)) := by
  unfold execFinish
  cases hs : stopped s.status <;> simp [finishedState]

/-- The state a command leaves; every command leaves one (43_control.md R126). -/
def execState (i : Instr) (s : State) : State :=
  match i with
  | .nop => s
  | .feed d => if stopped s.status then markLate s else if bufferFull s then raiseOverflow s else fedState d s
  | .finish => if stopped s.status then markLate s else finishedState s
  | .reset => freshInstance s
  | .crcInit => { s with crc := crcInitValue }
  | .crcByte d => { s with crc := crcStep s.crc d }

theorem exec_eq_next (i : Instr) (s : State) : exec i s = .next (execState i s) := by
  cases i with
  | nop => rfl
  | feed d =>
    show execFeed d s = _
    unfold execFeed execState
    split
    · rfl
    · split <;> rfl
  | finish =>
    show execFinish s = _
    unfold execFinish execState
    split <;> rfl
  | reset => rfl
  | crcInit => rfl
  | crcByte d => rfl

/-- An accepted word is a command executed or a reserved word flagged (43_control.md R127). -/
theorem acceptWord_cases (w : CmdWord) (s : State) :
    (∃ i, decode w = .ok i ∧ acceptWord w s = .next (execState i s)) ∨
    (∃ r, decode w = .error r ∧ acceptWord w s = .next (raiseFlag .ill s)) := by
  unfold acceptWord
  cases h : decode w with
  | ok i => exact .inl ⟨i, rfl, exec_eq_next i s⟩
  | error r => exact .inr ⟨r, rfl, rfl⟩

/-- What a step can do: hold the state, take `rst`, or take and execute a word. -/
theorem step_cases (s : State) :
    (s.inbox = [] ∧ step s = .next s) ∨
    (∃ rest, s.inbox = .rst :: rest ∧ step s = .next (pinReset { s with inbox := rest })) ∨
    (∃ w rest, s.inbox = .cmd w :: rest ∧ step s = acceptWord w { s with inbox := rest }) := by
  unfold step acceptNext takeInput
  match h : s.inbox with
  | [] => exact .inl ⟨rfl, rfl⟩
  | .rst :: rest => exact .inr (.inl ⟨rest, rfl, rfl⟩)
  | .cmd w :: rest => exact .inr (.inr ⟨w, rest, rfl, rfl⟩)

end Sys2Proof.Machine
end

