-- ==== Sys2Proof/Laws/Operands.lean ====
section
/-! SUPPORT. Laws of operand assembly: `BE16` and `be16` are inverse, and what a read of one or two bytes answers (spec 00_scope.md R12, R13). -/

namespace Sys2Proof.Machine

/-- `BE16(hi, lo)` = 256·hi + lo (00_scope.md R12). -/
theorem BE16_toNat (hi lo : Byte) : (BE16 hi lo).toNat = 256 * hi.toNat + lo.toNat := by
  have h : (BE16 hi lo).toNat = hi.toNat <<< 8 ||| lo.toNat := BitVec.toNat_append hi lo
  rw [h, ← Nat.shiftLeft_add_eq_or_of_lt lo.isLt, Nat.shiftLeft_eq]
  omega

theorem BE16_high (hi lo : Byte) : (BE16 hi lo).extractLsb' 8 8 = hi := by
  apply BitVec.eq_of_toNat_eq
  have h := BE16_toNat hi lo
  have h1 := hi.isLt
  have h0 := lo.isLt
  rw [BitVec.extractLsb'_toNat, h, Nat.shiftRight_eq_div_pow]
  omega

theorem BE16_low (hi lo : Byte) : (BE16 hi lo).extractLsb' 0 8 = lo := by
  apply BitVec.eq_of_toNat_eq
  have h := BE16_toNat hi lo
  have h0 := lo.isLt
  rw [BitVec.extractLsb'_toNat, h, Nat.shiftRight_eq_div_pow]
  omega

/-- `be16` is the inverse of `BE16` (00_scope.md R12). -/
@[simp] theorem be16_BE16 (hi lo : Byte) : be16 (BE16 hi lo) = [hi, lo] := by
  rw [be16, BE16_high, BE16_low]

/-- `BE16` of the two bytes of a value is the value. -/
@[simp] theorem BE16_extract (v : Half) :
    BE16 (v.extractLsb' 8 8) (v.extractLsb' 0 8) = v := by
  apply BitVec.eq_of_toNat_eq
  have h := v.isLt
  rw [BE16_toNat, BitVec.extractLsb'_toNat, BitVec.extractLsb'_toNat, Nat.shiftRight_eq_div_pow,
    Nat.shiftRight_eq_div_pow]
  omega

@[simp] theorem be16_length (v : Half) : (be16 v).length = 2 := rfl

@[simp] theorem be16s_length (vs : List Half) : (be16s vs).length = 2 * vs.length := by
  induction vs with
  | nil => rfl
  | cons v vs ih => simp [be16s, ih]; omega

/-- The items of a sequence of 16-bit values sent big-endian are those values (30_encoding.md R48). -/
@[simp] theorem itemsOf_be16s (vs : List Half) : itemsOf (be16s vs) = vs := by
  induction vs with
  | nil => rfl
  | cons v vs ih => simp [be16s, be16, itemsOf, ih]

theorem readByte_eq_some_iff (m : Memory) (a : Nat) (b : Byte) :
    readByte m a = some b ↔ m[a]? = some b := Iff.rfl

/-- An address names a byte exactly when it is below `|BUF|` (20_memory.md R32). -/
theorem readByte_isSome_iff (m : Memory) (a : Nat) : (readByte m a).isSome ↔ a < m.length := by
  simp [readByte]

/-- A two-byte read answers exactly when both bytes are there, and then with `BE16` of them (00_scope.md R13). -/
theorem readHalf_eq_some_iff (m : Memory) (a : Nat) (v : Half) :
    readHalf m a = some v ↔ ∃ hi lo, m[a]? = some hi ∧ m[a + 1]? = some lo ∧ v = BE16 hi lo := by
  unfold readHalf readByte
  split
  · rename_i hi lo h1 h2
    simp [h1, h2, eq_comm]
  · rename_i h
    constructor
    · intro hc; cases hc
    · rintro ⟨hi, lo, h1, h2, -⟩; exact (h hi lo h1 h2).elim

theorem readHalf_eq_none_iff (m : Memory) (a : Nat) : readHalf m a = none ↔ m.length < a + 2 := by
  unfold readHalf readByte
  split
  · rename_i hi lo h1 h2
    have := (List.getElem?_eq_some_iff.mp h2).1
    simp; omega
  · rename_i h
    refine ⟨fun _ => ?_, fun _ => rfl⟩
    by_contra hc
    exact h m[a] m[a + 1] (List.getElem?_eq_getElem (by omega)) (List.getElem?_eq_getElem (by omega))

/-- Bytes behind the two read ones do not change the value read. -/
theorem readHalf_append (m n : Memory) (a : Nat) (v : Half) (h : readHalf m a = some v) :
    readHalf (m ++ n) a = some v := by
  rw [readHalf_eq_some_iff] at h ⊢
  obtain ⟨hi, lo, h1, h2, hv⟩ := h
  have l1 := (List.getElem?_eq_some_iff.mp h1).1
  have l2 := (List.getElem?_eq_some_iff.mp h2).1
  exact ⟨hi, lo, by rw [List.getElem?_append_left l1, h1], by rw [List.getElem?_append_left l2, h2], hv⟩

/-- A sequence begins with the marker exactly when its first two bytes are `0xBE`, `0xEF`. -/
theorem startsWithMarker_iff (b : List Byte) :
    startsWithMarker b = true ↔ ∃ t, b = marker0 :: marker1 :: t := by
  match b with
  | [] => simp [startsWithMarker]
  | [_] => simp [startsWithMarker]
  | b0 :: b1 :: t => simp [startsWithMarker]

end Sys2Proof.Machine
end

