-- ==== Sys2Proof/Laws/Memory.lean ====
section
/-! SUPPORT. Laws of the memory: reads after an append and after a drop, the canonical form, and the capacity (spec 20_memory.md R32 to R35, R40). -/

namespace Sys2Proof.Machine

/-- The byte appended stands at the back, every other byte where it stood (20_memory.md R33). -/
theorem readByte_memAppend (m : Memory) (d : Byte) (a : Nat) :
    readByte (memAppend m d) a = if a = m.length then some d else readByte m a := by
  unfold readByte memAppend
  split
  · subst_vars; simp
  · rcases Nat.lt_or_ge a m.length with h | h
    · rw [List.getElem?_append_left h]
    · rw [List.getElem?_eq_none (by simp; omega), List.getElem?_eq_none h]

/-- "the byte that was at address n is afterwards at address 0" (20_memory.md R32). -/
theorem readByte_memDrop (m : Memory) (n a : Nat) : readByte (memDrop m n) a = readByte m (n + a) := by
  simp [readByte, memDrop]

@[simp] theorem memAppend_length (m : Memory) (d : Byte) : (memAppend m d).length = m.length + 1 := by
  simp [memAppend]

@[simp] theorem memDrop_length (m : Memory) (n : Nat) : (memDrop m n).length = m.length - n := by
  simp [memDrop]

theorem admits_mono {c : Capacity} {m n : Nat} (h : m ≤ n) (hn : c.admits n = true) : c.admits m = true := by
  cases c with
  | bounded k => simp only [Capacity.admits, decide_eq_true_eq] at *; omega
  | unbounded => rfl

/-- `BufAppend` keeps `|BUF|` ≤ `CAP` where its precondition `|BUF|` < `CAP` holds (20_memory.md R33). -/
theorem memAppend_wf {c : Capacity} {m : Memory} (d : Byte) (h : Memory.wf c m)
    (hroom : c ≠ .bounded m.length) : Memory.wf c (memAppend m d) := by
  cases c with
  | bounded k =>
    simp only [Memory.wf, Capacity.admits, memAppend_length, decide_eq_true_eq, ne_eq,
      Capacity.bounded.injEq] at *
    omega
  | unbounded => rfl

/-- `BufDrop` keeps `|BUF|` ≤ `CAP` (20_memory.md R34). -/
theorem memDrop_wf {c : Capacity} {m : Memory} (n : Nat) (h : Memory.wf c m) : Memory.wf c (memDrop m n) :=
  admits_mono (by simp) h

/-- The empty memory of reset is within every capacity. -/
theorem resetWith_memory_wf (p : Params) : Memory.wf p.cap (State.resetWith p).buf := by
  cases h : p.cap <;> simp [Memory.wf, Capacity.admits, State.resetWith]

theorem cellsFrom_mem (k a : Nat) (b : Byte) (m : Memory) :
    (a, b) ∈ Memory.cellsFrom k m ↔ k ≤ a ∧ readByte m (a - k) = some b := by
  induction m generalizing k with
  | nil => simp [Memory.cellsFrom, readByte]
  | cons c m ih =>
    simp only [Memory.cellsFrom, List.mem_cons, Prod.mk.injEq, ih, readByte]
    rcases Nat.lt_trichotomy a k with h | h | h
    · simp only [show ¬ k ≤ a by omega, show ¬ k + 1 ≤ a by omega, show a ≠ k by omega, false_and, or_self]
    · subst h; simp [eq_comm]
    · rw [show a - k = (a - (k + 1)) + 1 by omega]
      simp only [List.getElem?_cons_succ, show k ≤ a by omega, show k + 1 ≤ a by omega,
        show a ≠ k by omega, false_and, false_or, true_and]

/-- The cells of a memory are exactly what its addresses read as. -/
theorem cells_mem_iff (a : Nat) (b : Byte) (m : Memory) :
    (a, b) ∈ Memory.cells m ↔ readByte m a = some b := by
  simp [Memory.cells, cellsFrom_mem]

theorem cellsFrom_rising (k : Nat) (m : Memory) :
    (Memory.cellsFrom k m).Pairwise fun x y => x.1 < y.1 := by
  induction m generalizing k with
  | nil => exact .nil
  | cons c m ih =>
    refine List.pairwise_cons.mpr ⟨?_, ih (k + 1)⟩
    rintro ⟨a, b⟩ h
    have := ((cellsFrom_mem (k + 1) a b m).mp h).1
    simp only; omega

/-- The cells stand in one canonical order, addresses strictly rising. -/
theorem cells_rising (m : Memory) : (Memory.cells m).Pairwise fun x y => x.1 < y.1 :=
  cellsFrom_rising 0 m

end Sys2Proof.Machine
end

