-- ==== Sys2Proof/Laws/PerInstr.lean ====
section
/-! SUPPORT. One lemma per instruction: its word selects its own row of the table and carries its operand (spec 30_encoding.md R53, R54). -/

namespace Sys2Proof.Laws.EncodedRow

/-- The operand of a command, `0x00` for a command without one (30_encoding.md R52, R54). -/
def operandOf : Instr → Byte
  | .nop => 0x00#8
  | .feed d => d
  | .finish => 0x00#8
  | .reset => 0x00#8
  | .crcInit => 0x00#8
  | .crcByte d => d

/-- The word of a command selects the command's row and has the command's operand in bits 7:0. -/
def Statement (i : Instr) : Prop := selects (encode i) (rowOf i) = true ∧ dField (encode i) = operandOf i

theorem nop : Statement .nop := ⟨by decide, by decide⟩

theorem feed (d : Byte) : Statement (.feed d) := by
  refine ⟨?_, ?_⟩
  · simp only [selects, encode, rowOf, beq_iff_eq]
    apply BitVec.eq_of_getLsbD_eq
    intro i hi
    interval_cases i <;> simp
  · apply BitVec.eq_of_getLsbD_eq
    intro i hi
    interval_cases i <;> simp [dField, encode, operandOf]

theorem finish : Statement .finish := ⟨by decide, by decide⟩

theorem reset : Statement .reset := ⟨by decide, by decide⟩

theorem crcInit : Statement .crcInit := ⟨by decide, by decide⟩

theorem crcByte (d : Byte) : Statement (.crcByte d) := by
  refine ⟨?_, ?_⟩
  · simp only [selects, encode, rowOf, beq_iff_eq]
    apply BitVec.eq_of_getLsbD_eq
    intro i hi
    interval_cases i <;> simp
  · apply BitVec.eq_of_getLsbD_eq
    intro i hi
    interval_cases i <;> simp [dField, encode, operandOf]

end Sys2Proof.Laws.EncodedRow
end

