-- ==== Sys2Proof/Laws/Reassembler.lean ====
section
/-! SUPPORT. Laws of the reassembler's shared operations: the marker search, one turn of the loop, and the raw bytes of what it emits (spec 42_reassembler.md). -/

namespace Sys2Proof.Machine

@[simp] theorem findMarker_nil : findMarker [] = none := rfl

@[simp] theorem findMarker_one (a : Byte) : findMarker [a] = none := rfl

/-- The marker search, one position at a time (42_reassembler.md R96). -/
theorem findMarker_two (b0 b1 : Byte) (bs : List Byte) :
    findMarker (b0 :: b1 :: bs) =
      if b0 = marker0 ∧ b1 = marker1 then some 0 else (findMarker (b1 :: bs)).map (· + 1) := by
  rw [findMarker]

/-- Everything one turn of the loop can do: the returns and the two continuations of 42_reassembler.md R104. -/
theorem drainTurn_cases (p : Params) (b : List Byte) :
    (findMarker b = none ∧ drainTurn p b = .stop [] b) ∨
    ∃ idx, findMarker b = some idx ∧
      ((readHalf (b.drop idx) 2 = none ∧ drainTurn p b = .stop (noiseEvents idx b) (b.drop idx)) ∨
       ∃ length, readHalf (b.drop idx) 2 = some length ∧
        ((p.maxItems.val < length.toNat ∧
            drainTurn p b = .again (noiseEvents idx b ++ [.malformedFrame .lengthBounds ((b.drop idx).take 4)])
              ((b.drop idx).drop 4)) ∨
         (length.toNat ≤ p.maxItems.val ∧ (b.drop idx).length < frameLen length.toNat ∧
            drainTurn p b = .stop (noiseEvents idx b) (b.drop idx)) ∨
         (length.toNat ≤ p.maxItems.val ∧ frameLen length.toNat ≤ (b.drop idx).length ∧
            drainTurn p b = .again
              (noiseEvents idx b ++ [eventOf (decodeFrame p ((b.drop idx).take (frameLen length.toNat)))
                ((b.drop idx).take (frameLen length.toNat))])
              ((b.drop idx).drop (frameLen length.toNat))))) := by
  unfold drainTurn
  cases hm : findMarker b with
  | none => exact .inl ⟨rfl, rfl⟩
  | some idx =>
    refine .inr ⟨idx, rfl, ?_⟩
    dsimp only
    unfold frameTurn
    cases hl : readHalf (b.drop idx) 2 with
    | none => exact .inl ⟨rfl, rfl⟩
    | some length =>
      refine .inr ⟨length, rfl, ?_⟩
      dsimp only
      by_cases h1 : p.maxItems.val < length.toNat
      · exact .inl ⟨h1, by rw [if_pos h1]⟩
      · rw [if_neg h1]
        by_cases h2 : (b.drop idx).length < frameLen length.toNat
        · exact .inr (.inl ⟨by omega, h2, by rw [if_pos h2]⟩)
        · exact .inr (.inr ⟨by omega, by omega, by rw [if_neg h2]⟩)

/-- One turn, then the rest of the loop (42_reassembler.md R104). -/
theorem drainFuel_succ (p : Params) (n : Nat) (b : List Byte) :
    drainFuel p (n + 1) b = match drainTurn p b with
      | .stop ev b' => (ev, b')
      | .again ev b' => (ev ++ (drainFuel p n b').1, (drainFuel p n b').2) := by
  cases h : drainTurn p b <;> simp only [drainFuel, h]

/-- An event made from a decode result accounts for the whole candidate (41_frame_codec.md R89, R90). -/
theorem eventOf_raw (p : Params) (b : List Byte) : eventRaw (eventOf (decodeFrame p b) b) = b := by
  unfold decodeFrame
  split
  · rfl
  · split
    · rfl
    · split
      · rfl
      · split
        · rfl
        · split
          · rfl
          · split <;> rfl

/-- Step 3 reports exactly the bytes it drops (42_reassembler.md R98). -/
theorem noiseEvents_raw (idx : Nat) (b : List Byte) : ((noiseEvents idx b).map eventRaw).flatten = b.take idx := by
  unfold noiseEvents; split
  · simp [eventRaw]
  · simp [show idx = 0 by omega]

/-- FINISH reports exactly the bytes it holds (42_reassembler.md R110). -/
theorem residueEvents_raw (b : List Byte) : ((residueEvents b).map eventRaw).flatten = b := by
  unfold residueEvents
  split
  · simp_all
  · split <;> simp [eventRaw]

end Sys2Proof.Machine
end

