-- ==== Sys2Proof/Tests/Slice0.lean ====
section
/-! SUPPORT. The model's own tests: expected results come from spec 95_test_vectors.md and the rules' worked examples; then one witness per statement that has hypotheses. -/

namespace Sys2Proof.Tests

open Sys2Proof Sys2Proof.Machine

set_option maxRecDepth 20000

/-! ### Helpers -/

/-- The next state of an outcome, if it is one. -/
def nextOf (o : Host.Outcome State Fault Refusal) : Option State :=
  match o with
  | .next s => some s
  | .fault _ => none
  | .refused _ => none

/-- A running machine with recommended parameters and the given buffer. -/
def holding (b : List Byte) : State := { State.reset with buf := b }

/-- A machine of capacity `c` and bound `m` with the given buffer. -/
def small (c : Nat) (m : Fin 65536) (b : List Byte) : State :=
  { State.resetWith ⟨.bounded c, m⟩ with buf := b }

/-- `Encode([])` = `BE EF 00 00 5B 4B` (V13). -/
def emptyFrame : List Byte := [0xBE#8, 0xEF#8, 0x00#8, 0x00#8, 0x5B#8, 0x4B#8]

/-- `Encode([1,2,3])` (V12). -/
def frame123 : List Byte :=
  [0xBE#8, 0xEF#8, 0x00#8, 0x03#8, 0x00#8, 0x01#8, 0x00#8, 0x02#8, 0x00#8, 0x03#8, 0x62#8, 0x71#8]

/-- V12 with byte 5 `01` → `FE` (V24). -/
def frame123Bad : List Byte :=
  [0xBE#8, 0xEF#8, 0x00#8, 0x03#8, 0x00#8, 0xFE#8, 0x00#8, 0x02#8, 0x00#8, 0x03#8, 0x62#8, 0x71#8]

/-! ### Well-formedness: each check refuses an ill-formed term -/

theorem test_wf_sendFrame_refuses_65536_items :
    (Pseudo.sendFrame (List.replicate 65536 0x0000#16)).wf = false := by
  simp only [Pseudo.wf, List.length_replicate]; decide

theorem test_wf_sendFrame_admits_65535_items :
    (Pseudo.sendFrame (List.replicate 65535 0x0000#16)).wf = true := by
  simp only [Pseudo.wf, List.length_replicate]; decide

theorem test_wf_params_refuses_cap_5 : Params.wf ⟨.bounded 5, 0⟩ = false := by decide

theorem test_wf_params_admits_cap_6 : Params.wf ⟨.bounded 6, 0⟩ = true := by decide

theorem test_wf_frame_refuses_missing_item : frameWf ⟨0x0001#16, [], 0x0000#16⟩ = false := by decide

theorem test_wf_memory_refuses_over_capacity : ¬ Memory.wf (.bounded 2) [0x01#8, 0x02#8, 0x03#8] := by decide

theorem test_recommended_cap_admits_every_frame : Params.recommended.admitsEveryFrame = true := by decide

theorem test_cap_6_admits_only_the_empty_frame :
    (Params.admitsEveryFrame ⟨.bounded 6, 0⟩, Params.admitsEveryFrame ⟨.bounded 6, 1⟩) = (true, false) := by decide

/-! ### Decoding: words written out bit by bit from 30_encoding.md R53 and the table of section 2.7 -/

theorem test_decode_nop : decode 0b000000000000#12 = .ok .nop := by decide
theorem test_decode_feed : decode 0b000110111110#12 = .ok (.feed 0xBE#8) := by decide
theorem test_decode_finish : decode 0b001000000000#12 = .ok .finish := by decide
theorem test_decode_reset : decode 0b001100000000#12 = .ok .reset := by decide
theorem test_decode_crcInit : decode 0b010000000000#12 = .ok .crcInit := by decide
theorem test_decode_crcByte : decode 0b010110111110#12 = .ok (.crcByte 0xBE#8) := by decide

theorem test_decode_rejects_by_name :
    decode 0x001#12 = .error (.operand 0x0#4 0x01#8) ∧ decode 0x201#12 = .error (.operand 0x2#4 0x01#8) ∧
    decode 0x3FF#12 = .error (.operand 0x3#4 0xFF#8) ∧ decode 0x480#12 = .error (.operand 0x4#4 0x80#8) ∧
    decode 0x600#12 = .error (.operation 0x6#4 0x00#8) ∧ decode 0xFFF#12 = .error (.operation 0xF#4 0xFF#8) := by
  decide

theorem test_table_word_decodes :
    decodeTableWord 16 0x1BE = some (.feed 0xBE#8) ∧ decodeTableWord 12 0x200 = some .finish ∧
    decodeTableWord 16 0x600 = none ∧ decodeTableWord 16 0x1200 = none := by decide

theorem test_rows_are_disjoint :
    ([rowOf .nop, rowOf (.feed 0#8), rowOf .finish, rowOf .reset, rowOf .crcInit, rowOf (.crcByte 0#8)]).Pairwise
      fun a b => a.pattern &&& (a.mask &&& b.mask) ≠ b.pattern &&& (a.mask &&& b.mask) := by decide

/-! ### The step, from reset -/

theorem test_step_feed :
    nextOf (step (State.reset.withFetchWord 16 0x1BE)) = some (holding [0xBE#8]) := by decide
theorem test_step_crcByte :
    nextOf (step (State.reset.withFetchWord 16 0x531)) = some { State.reset with crc := 0xC782#16 } := by decide
theorem test_step_reserved_sets_ill :
    nextOf (step (State.reset.withFetchWord 16 0x600)) = some { State.reset with status := 0x04#8 } := by decide
theorem test_step_idle : nextOf (step State.reset) = some State.reset := by decide
theorem test_step_rst_clears_trace :
    nextOf (step { State.reset with inbox := [.rst, .cmd 0x000#12], out := [.bufferOverflow], status := 0x0A#8 }) =
      some { State.reset with inbox := [.cmd 0x000#12] } := by decide

/-! ### The commands (programs P2 to P8, one step each) -/

theorem test_nop_while_stopped :
    nextOf (exec .nop { State.reset with status := 0x04#8 }) = some { State.reset with status := 0x04#8 } := by decide

/-- P2: the byte that completes the marker reports the noise. -/
theorem test_feed_discards_noise :
    nextOf (exec (.feed 0xEF#8) (holding [0x11#8, 0xBE#8, 0x22#8, 0xBE#8])) =
      some { holding [0xBE#8, 0xEF#8] with out := [.noiseDiscarded [0x11#8, 0xBE#8, 0x22#8]] } := by decide

/-- R109's example: the last byte of the empty frame. -/
theorem test_feed_completes_frame :
    nextOf (exec (.feed 0x4B#8) (holding [0xBE#8, 0xEF#8, 0x00#8, 0x00#8, 0x5B#8])) =
      some { holding [] with out := [.frameDecoded 0x0000#16 [] 0x5B4B#16 emptyFrame] } := by decide

/-- R110's example. -/
theorem test_finish_reports_incomplete :
    nextOf (exec .finish (holding [0xBE#8, 0xEF#8, 0x00#8, 0x03#8, 0x00#8, 0x01#8, 0x00#8])) =
      some { holding [] with
        status := 0x01#8
        out := [.incompleteFrame [0xBE#8, 0xEF#8, 0x00#8, 0x03#8, 0x00#8, 0x01#8, 0x00#8]] } := by decide

/-- R110 corner case b. -/
theorem test_finish_lone_marker_byte_is_noise :
    nextOf (exec .finish (holding [0xBE#8])) =
      some { holding [] with status := 0x01#8, out := [.noiseDiscarded [0xBE#8]] } := by decide

/-- R124's example. -/
theorem test_reset_recovers :
    nextOf (exec .reset { small 2 0 [0x01#8, 0x02#8] with status := 0x0A#8, crc := 0x1234#16, out := [.bufferOverflow] }) =
      some { small 2 0 [] with out := [.bufferOverflow] } := by decide

/-- R77's example. -/
theorem test_crcInit :
    nextOf (exec .crcInit { State.reset with crc := 0x29B1#16 }) = some State.reset := by decide

/-- 95_test_vectors.md section 2.1: a zero register with `01`. -/
theorem test_crcByte_from_zero :
    nextOf (exec (.crcByte 0x01#8) { State.reset with crc := 0x0000#16 }) =
      some { State.reset with crc := 0x1021#16 } := by decide

/-- P5 and its variant P5b. -/
theorem test_overflow_and_late :
    nextOf (exec (.feed 0xEF#8) (small 6 65535 [0x01#8, 0x02#8, 0x03#8, 0x04#8, 0x05#8, 0xBE#8])) =
      some { small 6 65535 [0x01#8, 0x02#8, 0x03#8, 0x04#8, 0x05#8, 0xBE#8] with
        status := 0x02#8, out := [.bufferOverflow] } ∧
    nextOf (exec .finish { small 6 65535 [0x01#8] with status := 0x02#8 }) =
      some { small 6 65535 [0x01#8] with status := 0x0A#8 } := by decide

/-! ### CRC, codec and detector vectors -/

/-- V5, V9, V10, V11. -/
theorem test_crc_vectors :
    crc16 [0x31#8, 0x32#8, 0x33#8, 0x34#8, 0x35#8, 0x36#8, 0x37#8, 0x38#8, 0x39#8] = 0x29B1#16 ∧
    crc16 [0xBE#8, 0xEF#8] = 0x2CCC#16 ∧ crc16 [0x00#8, 0x00#8] = 0x1D0F#16 ∧
    crc16 [0xFF#8, 0xFF#8] = 0x0000#16 := by decide

/-- R72's table entries. -/
theorem test_crc_table :
    crcTable 0x08#8 = 0x8108#16 ∧ crcTable 0x10#8 = 0x1231#16 ∧ crcTable 0x80#8 = 0x9188#16 ∧
    crcTable 0xFF#8 = 0x1EF0#16 := by decide

/-- V12, V15. -/
theorem test_encode_vectors :
    encodeFrame [0x0001#16, 0x0002#16, 0x0003#16] = some frame123 ∧
    encodeFrame [0xFFFF#16, 0x0000#16] =
      some [0xBE#8, 0xEF#8, 0x00#8, 0x02#8, 0xFF#8, 0xFF#8, 0x00#8, 0x00#8, 0x46#8, 0x3B#8] := by decide

/-- V20, V24, V25, V26, V23, V30. -/
theorem test_decodeFrame_vectors :
    decodeFrame Params.recommended frame123 = .ok ⟨0x0003#16, [0x0001#16, 0x0002#16, 0x0003#16], 0x6271#16⟩ ∧
    decodeFrame Params.recommended frame123Bad = .checksumMismatch 0x38DE#16 0x6271#16 frame123Bad ∧
    decodeFrame Params.recommended [0xBE#8, 0xEE#8, 0x00#8, 0x00#8, 0x5B#8, 0x4B#8] =
      .malformedFrame .markerMissing [0xBE#8, 0xEE#8, 0x00#8, 0x00#8, 0x5B#8, 0x4B#8] ∧
    decodeFrame Params.recommended [0xBE#8, 0xEF#8, 0x00#8, 0x01#8, 0x00#8, 0x00#8] =
      .malformedFrame .lengthInconsistent [0xBE#8, 0xEF#8, 0x00#8, 0x01#8, 0x00#8, 0x00#8] ∧
    decodeFrame Params.recommended [0xBE#8, 0xEF#8, 0x00#8] =
      .malformedFrame .lengthInconsistent [0xBE#8, 0xEF#8, 0x00#8] ∧
    decodeFrame ⟨.unbounded, 2⟩ frame123 = .malformedFrame .lengthBounds frame123 := by decide

/-- V31c to V31g. -/
theorem test_findMarker_vectors :
    findMarker [0xEF#8, 0xBE#8] = none ∧ findMarker [0xBE#8, 0xBE#8, 0xEF#8] = some 1 ∧
    findMarker [0x11#8, 0xBE#8, 0x22#8, 0xBE#8, 0xEF#8] = some 3 ∧
    findMarker [0xBE#8, 0xEF#8, 0xBE#8, 0xEF#8] = some 0 := by decide

/-- V43 and V41. -/
theorem test_drain_vectors :
    drain ⟨.unbounded, 100⟩ ([0xBE#8, 0xEF#8, 0xFF#8, 0xFF#8] ++ emptyFrame) =
      ([.malformedFrame .lengthBounds [0xBE#8, 0xEF#8, 0xFF#8, 0xFF#8],
        .frameDecoded 0x0000#16 [] 0x5B4B#16 emptyFrame], []) ∧
    drain Params.recommended ([0xBE#8, 0xEF#8] ++ emptyFrame) = ([], [0xBE#8, 0xEF#8] ++ emptyFrame) := by decide

/-! ### The event port -/

/-- Section 2.8: packets of three events. -/
theorem test_packets :
    packetOf (.frameDecoded 0x0001#16 [0x1234#16] 0x0F1C#16
        [0xBE#8, 0xEF#8, 0x00#8, 0x01#8, 0x12#8, 0x34#8, 0x0F#8, 0x1C#8]) =
      [0x201#10, 0x000#10, 0x001#10, 0x012#10, 0x034#10, 0x00F#10, 0x11C#10] ∧
    packetOf (.malformedFrame .lengthBounds [0xBE#8, 0xEF#8, 0x00#8, 0x03#8]) =
      [0x203#10, 0x003#10, 0x0BE#10, 0x0EF#10, 0x000#10, 0x103#10] ∧
    packetOf .bufferOverflow = [0x306#10] := by decide

/-- Section 2.8: the packet of a mismatch. -/
theorem test_packet_mismatch :
    packetOf (.checksumMismatch 0x2D19#16 0x0000#16
        [0xBE#8, 0xEF#8, 0x00#8, 0x01#8, 0xBE#8, 0xEF#8, 0x00#8, 0x00#8]) =
      [0x202#10, 0x02D#10, 0x019#10, 0x000#10, 0x000#10, 0x0BE#10, 0x0EF#10, 0x000#10, 0x001#10, 0x0BE#10,
       0x0EF#10, 0x000#10, 0x100#10] := by decide

/-- R22: 18 bits for `CAP` = 131076. -/
theorem test_level_width : levelWidth (.bounded 131076) = some 18 := by decide

/-- An `rst` inside a command is declined, and a word offered then is not taken. -/
theorem test_ports_inside_a_command :
    (match portMove .rst ⟨State.reset, [0x306#10], []⟩ with
      | .refused r => r == .rstInsideCommand
      | _ => false) = true ∧
    outputsAtPort ⟨State.reset, [0x306#10], []⟩ = none ∧
    evtOut ⟨State.reset, [0x306#10], []⟩ = some 0x306#10 := by decide

/-! ### Assembler -/

theorem test_parse_line_with_comment :
    parseLine ['F', 'E', 'E', 'D', ' ', '0', 'x', 'B', 'E', ' ', ';', ' ', 'x'] = .ok (some (.feed 0xBE#8)) := by decide
theorem test_parse_line_errors :
    parseLine ['F', 'E', 'E', 'D'] = .error .missingOperand ∧
    parseLine ['N', 'O', 'P', ' ', '0', 'x', '0', '0'] = .error .extraOperand ∧
    parseLine [';'] = .ok none := by decide

/-! ### Witnesses: concrete inputs that meet the hypotheses of a statement together -/

/-- A state that meets the invariant and whose trace holds a report of every kind. -/
def sample : State :=
  { State.resetWith ⟨.bounded 16, 3⟩ with
    buf := [0xBE#8, 0xEF#8, 0x00#8]
    out := [.frameDecoded 0x0003#16 [0x0001#16, 0x0002#16, 0x0003#16] 0x6271#16 frame123,
            .checksumMismatch 0x38DE#16 0x6271#16 frame123Bad,
            .malformedFrame .lengthBounds [0xBE#8, 0xEF#8, 0x00#8, 0x04#8],
            .noiseDiscarded [0x11#8], .incompleteFrame [0xBE#8, 0xEF#8], .bufferOverflow] }

theorem sample_inv : Inv sample where
  paramsLegal := by decide
  bufferFits := by decide
  bufferQuiescent := by decide
  reservedZero := by decide
  notBothStops := by decide
  doneEmpty := by decide
  overflowFull := by decide
  reportsTruthful := by decide
  reportsFit := by decide

/-- A stopped state that meets the invariant: overflowed, full, with the report in the trace. -/
def overflowed : State :=
  { small 6 65535 [0x01#8, 0x02#8, 0x03#8, 0x04#8, 0x05#8, 0xBE#8] with
    status := 0x02#8, out := [.bufferOverflow] }

theorem overflowed_inv : Inv overflowed where
  paramsLegal := by decide
  bufferFits := by decide
  bufferQuiescent := by decide
  reservedZero := by decide
  notBothStops := by decide
  doneEmpty := by decide
  overflowFull := by decide
  reportsTruthful := by decide
  reportsFit := by decide

theorem witness_ReservedWordsOnlySetIll :
    decode 0x600#12 = .error (.operation 0x6#4 0x00#8) ∧ decode 0x4FF#12 = .error (.operand 0x4#4 0xFF#8) := by decide

theorem witness_CommandCodecRoundTrip :
    (Instr.feed 0xFF#8).wf = true ∧ decode 0x5FF#12 = .ok (.crcByte 0xFF#8) := by decide

theorem witness_StepRunsTheDecodedCommand :
    ({ State.reset with inbox := [.cmd 0x1BE#12, .rst] } : State).inbox = .cmd 0x1BE#12 :: [.rst] ∧
    decode 0x1BE#12 = .ok (.feed 0xBE#8) ∧ decodeTableWord 16 0x1BE = some (.feed 0xBE#8) := by decide

theorem witness_StepWithoutACommand :
    State.reset.inbox = [] ∧
    ({ State.reset with inbox := [.cmd 0x600#12] } : State).inbox = .cmd 0x600#12 :: [] ∧
    decode 0x600#12 = .error (.operation 0x6#4 0x00#8) := by decide

theorem witness_BothResetsRestoreTheResetValues :
    ({ State.reset with inbox := [.rst] } : State).inbox = .rst :: [] ∧
    exec .reset overflowed = .next (small 6 65535 [] |> fun s => { s with out := [.bufferOverflow] }) :=
  ⟨rfl, rfl⟩

/-- The three branches at their boundaries: stopped, exactly `CAP` bytes, one byte less. -/
theorem witness_FeedFollowsItsPseudocode :
    (stopped overflowed.status = true) ∧
    (stopped (small 2 0 [0x01#8, 0x02#8]).status = false ∧
      (small 2 0 [0x01#8, 0x02#8]).params.cap = .bounded (small 2 0 [0x01#8, 0x02#8]).buf.length) ∧
    (small 2 0 [0x01#8]).params.cap ≠ .bounded (small 2 0 [0x01#8]).buf.length ∧
    (holding [0xBE#8, 0xEF#8, 0x00#8, 0x00#8, 0x5B#8]).params.cap ≠ .bounded 5 := by decide

theorem witness_CrcByteFeedsTheRegister : State.reset.crc = 0xFFFF#16 ∧ (0x01#8 : Byte) ≠ 0x00#8 := by decide

/-- The empty frame: its marker-free runs have at most 5 bytes (`EF 00 00 5B 4B`) and its one candidate has `FrameLen` 6;
`CAP` = 7 with the default `MAX_ITEMS` has just the room. -/
theorem witness_EnoughRoomNeverOverflows :
    stopped (small 7 65535 []).status = false ∧ (small 7 65535 []).buf = [] ∧
    (∀ pre run post, emptyFrame = pre ++ run ++ post → findMarker run = none → run.length ≤ 5) ∧
    candidatesWithin (small 7 65535 []).params emptyFrame 6 ∧
    (small 7 65535 []).params.cap.admits (5 + 2) = true ∧ (small 7 65535 []).params.cap.admits 6 = true := by
  refine ⟨by decide, rfl, ?_, ?_, by decide, by decide⟩
  · intro pre run post h hrun
    have hl : 6 = pre.length + run.length + post.length := by
      simpa [emptyFrame, Nat.add_assoc] using congrArg List.length h
    by_contra hlong
    have hpre : pre = [] := List.length_eq_zero_iff.mp (by omega)
    have hpost : post = [] := List.length_eq_zero_iff.mp (by omega)
    subst hpre hpost
    rw [List.nil_append, List.append_nil] at h
    rw [← h] at hrun
    exact absurd hrun (by decide)
  · have h : ∀ n, n < 7 → startsWithMarker (drain ⟨.bounded 7, 65535⟩ (emptyFrame.take n)).2 = true →
        (readHalf (drain ⟨.bounded 7, 65535⟩ (emptyFrame.take n)).2 2).all (fun l => decide (frameLen l.toNat ≤ 6)) = true := by
      decide
    intro pre hpre hstart
    have hn : pre.length < 7 := by have := hpre.length_le; simpa [emptyFrame] using Nat.lt_succ_of_le this
    have htake : pre = emptyFrame.take pre.length := List.prefix_iff_eq_take.mp hpre
    rw [htake] at hstart
    refine ⟨Nat.le_refl 6, fun length hlength => ?_⟩
    rw [htake] at hlength
    have := h pre.length hn hstart
    rw [show (small 7 65535 []).params = ⟨.bounded 7, 65535⟩ from rfl] at hlength
    rw [hlength] at this
    simpa using this

theorem witness_LateCommandsOnlySetLate :
    (getFlag .done 0x01#8 = true ∨ getFlag .ovf 0x01#8 = true) ∧
    (getFlag .done 0x02#8 = true ∨ getFlag .ovf 0x02#8 = true) := by decide

/-- The three clauses of FINISH: empty, marker-free and marker-led buffers. -/
theorem witness_FinishReportsTheResidue :
    getFlag .done State.reset.status = false ∧ getFlag .ovf State.reset.status = false ∧ State.reset.buf = [] ∧
    findMarker (holding [0xBE#8]).buf = none ∧ (holding [0xBE#8]).buf ≠ [] ∧
    findMarker (holding [0xBE#8, 0xEF#8]).buf = some 0 ∧
    (getFlag .done overflowed.status = true ∨ getFlag .ovf overflowed.status = true) := by decide

theorem witness_ResetStartsAFreshInstance : ∃ t, exec .reset overflowed = .next t := ⟨_, rfl⟩

theorem witness_CrcCommandsFrame :
    (∃ t, exec .nop sample = .next t) ∧ (∃ t, exec .crcInit sample = .next t) ∧
    (∃ t, exec (.crcByte 0x31#8) sample = .next t) := ⟨⟨_, rfl⟩, ⟨_, rfl⟩, ⟨_, rfl⟩⟩

/-- FEED accepted, FEED stopped, FEED on a full buffer, FINISH running, FINISH stopped. -/
theorem witness_StreamCommandsFrame :
    (∃ t, exec (.feed 0x03#8) sample = .next t) ∧ stopped sample.status = false ∧
    sample.params.cap ≠ .bounded sample.buf.length ∧
    (∃ t, exec (.feed 0x03#8) overflowed = .next t) ∧ stopped overflowed.status = true ∧
    (∃ t, exec (.feed 0x03#8) (small 0 0 []) = .next t) ∧ (small 0 0 []).params.cap = .bounded (small 0 0 []).buf.length ∧
    (∃ t, exec .finish sample = .next t) ∧ (∃ t, exec .finish overflowed = .next t) := by
  refine ⟨⟨_, exec_eq_next _ _⟩, by decide, by decide, ⟨_, exec_eq_next _ _⟩, by decide, ⟨_, exec_eq_next _ _⟩, by decide,
    ⟨_, exec_eq_next _ _⟩, ⟨_, exec_eq_next _ _⟩⟩

theorem witness_ResetStateSatisfiesInvariant : Params.wf ⟨.bounded 6, 0⟩ = true ∧ Params.wf ⟨.unbounded, 65535⟩ = true := by
  decide

theorem witness_EveryStepKeepsTheInvariant : Inv sample ∧ ∃ t, step (sample.withFetchWord 16 0x103) = .next t :=
  ⟨sample_inv, ⟨_, exec_eq_next (.feed 0x03#8) sample⟩⟩

/-- FINISH sets `DONE`, FEED sets `OVF`, and a set flag stays. -/
theorem witness_OnlyResetClearsFlags :
    (nextOf (exec .finish State.reset)).map (fun t => getFlag .done t.status) = some true ∧
    (nextOf (exec (.feed 0x00#8) (small 0 0 []))).map (fun t => getFlag .ovf t.status) = some true ∧
    (nextOf (exec .finish overflowed)).map (fun t => getFlag .late t.status) = some true ∧
    getFlag .ovf overflowed.status = true ∧ getFlag .done State.reset.status = false := by decide

theorem witness_OnlyResetsRestartTheReassembler :
    stopped overflowed.status = true ∧
    (nextOf (step { overflowed with inbox := [.cmd 0x300#12] })).map (fun t => stopped t.status) = some false ∧
    (nextOf (step { overflowed with inbox := [.rst] })).map (fun t => stopped t.status) = some false := by decide

theorem witness_OverflowFreezesTheBuffer :
    Inv overflowed ∧ getFlag .ovf overflowed.status = true ∧ (0x155#12 : CmdWord) ≠ 0x300#12 ∧
    ∃ t, acceptWord 0x155#12 overflowed = .next t :=
  ⟨overflowed_inv, by decide, by decide, ⟨_, exec_eq_next (.feed 0x55#8) overflowed⟩⟩

theorem witness_TraceOnlyGrows : (∃ t, step sample = .next t) ∧ ∀ rest, sample.inbox ≠ .rst :: rest :=
  ⟨⟨sample, rfl⟩, fun _ h => by cases h⟩

theorem witness_OneCommandEmitsAtMostOneEvent :
    Inv sample ∧ ∃ t, acceptWord 0x200#12 sample = .next t := ⟨sample_inv, ⟨_, exec_eq_next .finish sample⟩⟩

/-- The three disjuncts of `Q`. -/
theorem witness_PhaseOfAQuiescentBuffer :
    quiescent Params.recommended [0xBE#8] = true ∧ quiescent Params.recommended [0xBE#8, 0xEF#8, 0x00#8] = true ∧
    quiescent Params.recommended [0xBE#8, 0xEF#8, 0x00#8, 0x00#8] = true := by decide

theorem witness_LevelFitsItsWidth :
    Inv sample ∧ levelWidth sample.params.cap = some 5 ∧ levelWidth (.bounded 7) = some 3 ∧
    levelWidth (.bounded 8) = some 4 := ⟨sample_inv, by decide⟩

/-- One bit of each clause of the bit-by-bit rule. -/
theorem witness_CrcBitByItsBits :
    (crcBit 0x8000#16 false).getLsbD 0 = true ∧ (crcBit 0x0010#16 true).getLsbD 5 = false ∧
    (crcBit 0x0800#16 true).getLsbD 12 = false ∧ (crcBit 0x4000#16 true).getLsbD 15 = true := by decide

theorem witness_FrameLengthOfAPayload :
    frameLen 32768 = 65542 ∧ frameLen 65535 = 131076 ∧
    encodeFrame [] = some emptyFrame := by decide

theorem witness_DecodeOutcomesCharacterised :
    decodeFrame Params.recommended frame123 = .ok ⟨0x0003#16, [0x0001#16, 0x0002#16, 0x0003#16], 0x6271#16⟩ ∧
    decodeFrame Params.recommended frame123Bad = .checksumMismatch 0x38DE#16 0x6271#16 frame123Bad ∧
    decodeFrame Params.recommended [] = .malformedFrame .markerMissing [] ∧
    decodeFrame Params.recommended [0xBE#8] = .malformedFrame .markerMissing [0xBE#8] ∧
    decodeFrame Params.recommended [0xBE#8, 0xEF#8, 0x00#8] =
      .malformedFrame .lengthInconsistent [0xBE#8, 0xEF#8, 0x00#8] ∧
    decodeFrame Params.recommended [0xBE#8, 0xEF#8, 0x00#8, 0x01#8, 0x00#8, 0x00#8] =
      .malformedFrame .lengthInconsistent [0xBE#8, 0xEF#8, 0x00#8, 0x01#8, 0x00#8, 0x00#8] ∧
    decodeFrame ⟨.unbounded, 2⟩ frame123 = .malformedFrame .lengthBounds frame123 := by decide

theorem witness_FrameCodecRoundTrip : [0xBEEF#16].length ≤ (Params.mk .unbounded 1).maxItems.val := by decide

theorem witness_OneChangedPayloadByteIsDetected :
    encodeFrame [0x0001#16, 0x0002#16, 0x0003#16] = some frame123 ∧ 4 ≤ 5 ∧ 5 + 2 < frame123.length ∧
    frame123[5]? ≠ some 0xFE#8 ∧ 4 ≤ 9 ∧ 9 + 2 < frame123.length := by decide

theorem witness_ResidueTestIsTheComparison :
    encodeFrame [] = some emptyFrame ∧ validate emptyFrame = some ⟨0x5B4B#16, 0x5B4B#16⟩ ∧
    validate [0xBE#8, 0xEF#8, 0x00#8, 0x00#8, 0x5B#8, 0x4A#8] = some ⟨0x5B4B#16, 0x5B4A#16⟩ := by decide

theorem witness_FindMarkerIsLeastOccurrence :
    findMarker [0x11#8, 0xBE#8, 0xEF#8] = some 1 ∧ findMarker [0x11#8, 0xBE#8] = none := by decide

theorem witness_RollingCursorFindsTheSameMarker :
    findMarker ([0x11#8, 0xBE#8, 0xEF#8].take (1 + 1)) = none := by decide

/-- Every clause of the loop: no marker; fewer than 4 bytes; out of bounds; one byte short; exactly `total` bytes. -/
theorem witness_DrainFollowsTheLoop :
    findMarker [0xBE#8] = none ∧
    (findMarker [0x11#8, 0xBE#8, 0xEF#8, 0x00#8] = some 1 ∧ ([0x11#8, 0xBE#8, 0xEF#8, 0x00#8].drop 1 : List Byte).length < 4) ∧
    (findMarker [0xBE#8, 0xEF#8, 0x00#8, 0x03#8] = some 0 ∧ readHalf [0xBE#8, 0xEF#8, 0x00#8, 0x03#8] 2 = some 0x0003#16 ∧
      (Params.mk .unbounded 2).maxItems.val < (0x0003#16 : Half).toNat) ∧
    (readHalf [0xBE#8, 0xEF#8, 0x00#8, 0x00#8, 0x5B#8] 2 = some 0x0000#16 ∧
      ([0xBE#8, 0xEF#8, 0x00#8, 0x00#8, 0x5B#8] : List Byte).length < 4 + 2 * (0x0000#16 : Half).toNat + 2) ∧
    (readHalf emptyFrame 2 = some 0x0000#16 ∧ 4 + 2 * (0x0000#16 : Half).toNat + 2 ≤ emptyFrame.length) := by decide

theorem witness_DrainTurnsAreBounded :
    drainTurn Params.recommended (emptyFrame ++ [0x01#8]) = .again [.frameDecoded 0x0000#16 [] 0x5B4B#16 emptyFrame] [0x01#8] ∧
    emptyFrame.length / 4 + 1 ≤ 2 := by decide

theorem witness_DrainLeavesAQuiescentBuffer : quiescent Params.recommended [0xBE#8, 0xEF#8] = true := by decide

/-- The eight rows of the table of 42_reassembler.md R107. -/
theorem witness_FeedFollowsTheTransitionTable :
    (stopped State.reset.status = false ∧ State.reset.params.cap ≠ .bounded 0) ∧
    (phaseOf Params.recommended [0xBE#8] = .seekSync ∧ ([0xBE#8] : List Byte).getLast? = some 0xBE#8) ∧
    (phaseOf Params.recommended [0x11#8, 0xBE#8] = .seekSync ∧ ([0x11#8, 0xBE#8] : List Byte).getLast? = some 0xBE#8) ∧
    phaseOf Params.recommended [] = .seekSync ∧
    phaseOf Params.recommended [0xBE#8, 0xEF#8] = .awaitLength ∧
    (phaseOf ⟨.unbounded, 2⟩ [0xBE#8, 0xEF#8, 0x00#8] = .awaitLength ∧ (BE16 0x00#8 0x02#8).toNat ≤ 2 ∧
      2 < (BE16 0x00#8 0x03#8).toNat) ∧
    (phaseOf Params.recommended [0xBE#8, 0xEF#8, 0x00#8, 0x00#8] = .awaitPayload ∧ 4 + 1 < 4 + 2 * 0 + 2) ∧
    (phaseOf Params.recommended [0xBE#8, 0xEF#8, 0x00#8, 0x00#8, 0x5B#8] = .awaitPayload ∧ 5 + 1 = 4 + 2 * 0 + 2) ∧
    quiescent Params.recommended [0xBE#8, 0xEF#8, 0x00#8, 0x00#8, 0x5B#8] = true ∧
    quiescent ⟨.unbounded, 2⟩ [0xBE#8, 0xEF#8, 0x00#8] = true := by decide

theorem witness_ChunkSizeInvariance :
    drain Params.recommended ([] ++ [0x11#8, 0xBE#8]) = ([], [0x11#8, 0xBE#8]) ∧
    drain Params.recommended ([0x11#8, 0xBE#8] ++ [0xEF#8]) = ([.noiseDiscarded [0x11#8]], [0xBE#8, 0xEF#8]) := by decide

theorem witness_SerialFeedEqualsFeedChunk :
    stopped sample.status = false ∧ quiescent sample.params sample.buf = true ∧
    sample.params.cap.admits (sample.buf.length + ([0x00#8, 0x5B#8, 0x4B#8] : List Byte).length) = true := by decide

/-- Both clauses, with the overflow flag clear at the end. -/
theorem witness_EveryByteIsReportedOnce :
    stopped State.reset.status = false ∧
    (nextOf (runInstrs ([0x11#8].map .feed) State.reset)).map (fun t => getFlag .ovf t.status) = some false ∧
    (nextOf (runInstrs ([0x11#8].map .feed ++ [.finish]) State.reset)).map (fun t => getFlag .ovf t.status) = some false := by
  decide

/-- The clause with room, and the overflow clause one byte past the capacity. -/
theorem witness_NoiseIsHeldAndReportedWhole :
    stopped (small 6 0 []).status = false ∧ findMarker ((small 6 0 []).buf ++ [0x01#8, 0x02#8]) = none ∧
    (small 6 0 []).params.cap.admits ((small 6 0 []).buf.length + 6) = true ∧
    findMarker (List.replicate 7 0x01#8) = none ∧ (small 6 0 []).buf.length ≤ 6 ∧ 6 < (small 6 0 []).buf.length + 7 := by
  decide

/-- At the boundary of the rule's condition on `CAP`. -/
theorem witness_FramesAreRecoveredFromNoise :
    stopped (small 6 0 []).status = false ∧ (small 6 0 []).buf = [] ∧ encodeFrame [] = some emptyFrame ∧
    findMarker [0x11#8, 0x22#8, 0x33#8, 0xBE#8] = none ∧
    (small 6 0 []).params.cap.admits (([0x11#8, 0x22#8, 0x33#8, 0xBE#8] : List Byte).length + 2) = true ∧
    (small 6 0 []).params.cap.admits (frameLen 0) = true := by decide

theorem witness_TruncatedTailIsReportedAtFinish :
    stopped (small 6 0 []).status = false ∧ encodeFrame [] = some emptyFrame ∧
    ([] : List Byte) <+: emptyFrame ∧ [0xBE#8] <+: emptyFrame ∧ [0xBE#8, 0xEF#8] <+: emptyFrame ∧
    emptyFrame.take 5 <+: emptyFrame ∧ (emptyFrame.take 5).length < emptyFrame.length ∧
    (small 6 0 []).params.cap.admits (emptyFrame.take 5).length = true := by decide

theorem witness_CorruptedFrameDoesNotStopTheStream :
    stopped sample.status = false ∧ (small 16 3 []).buf = [] ∧
    encodeFrame [0x0001#16, 0x0002#16, 0x0003#16] = some frame123 ∧ encodeFrame [] = some emptyFrame ∧
    (small 16 3 []).params.cap.admits (frameLen 3) = true ∧ frame123[4]? ≠ some 0xFF#8 ∧ 4 + 2 < frame123.length := by
  decide

theorem witness_BackToBackFramesAreEachDecoded :
    (∀ p ∈ [[], [0x0007#16]], p.length ≤ (small 8 1 []).params.maxItems.val ∧
      (small 8 1 []).params.cap.admits (frameLen p.length) = true) ∧
    stopped (small 8 1 []).status = false ∧ (small 8 1 []).buf = [] := by decide

theorem witness_PseudoCommandsDoWhatTheyStandFor :
    (Pseudo.sendFrame [0x0007#16]).wf = true ∧ stopped (small 8 1 []).status = false ∧ (small 8 1 []).buf = [] ∧
    [0x0007#16].length ≤ (small 8 1 []).params.maxItems.val ∧ (small 8 1 []).params.cap.admits (frameLen 1) = true ∧
    encodeFrame [] = some emptyFrame ∧ emptyFrame ≠ [] ∧ quiescent (small 8 1 []).params (small 8 1 []).buf = true ∧
    (small 8 1 []).params.cap.admits ((small 8 1 []).buf.length + emptyFrame.length) = true := by
  decide

theorem witness_PacketsAreDelimited :
    (packetOf (.noiseDiscarded [0x5B#8, 0x4B#8]))[2]? = some 0x14B#10 ∧ encodeFrame [] = some emptyFrame := by decide

theorem witness_ReceiverRecoversTheTrace : Inv sample ∧ sample.out ≠ [] := ⟨sample_inv, by decide⟩

/-- A trace with a report of every kind. -/
theorem witness_PacketLengthBounds :
    Inv sample ∧ .frameDecoded 0x0003#16 [0x0001#16, 0x0002#16, 0x0003#16] 0x6271#16 frame123 ∈ sample.out ∧
    .checksumMismatch 0x38DE#16 0x6271#16 frame123Bad ∈ sample.out ∧
    .malformedFrame .lengthBounds [0xBE#8, 0xEF#8, 0x00#8, 0x04#8] ∈ sample.out ∧
    .noiseDiscarded [0x11#8] ∈ sample.out ∧ .incompleteFrame [0xBE#8, 0xEF#8] ∈ sample.out ∧
    .bufferOverflow ∈ sample.out := ⟨sample_inv, by decide⟩

/-- A word taken, a symbol taken, `rst` between commands; and a port with a symbol waiting. -/
theorem witness_EventPortLosesNoSymbol :
    (portReset Params.recommended).sent ++ (portReset Params.recommended).pending =
      symbolsOf (portReset Params.recommended).core.out ∧
    (∃ q, portMove (.offer 0x1BE#12) (portReset Params.recommended) = .next q) ∧
    (∃ q, portMove .sinkReady ⟨overflowed, [0x306#10], []⟩ = .next q) ∧
    ([] : List Symbol) ++ [0x306#10] = symbolsOf overflowed.out ∧
    (∃ q, portMove .rst (portReset Params.recommended) = .next q) ∧
    (PortState.mk overflowed [0x306#10] []).pending ≠ [] :=
  ⟨by decide, ⟨_, rfl⟩, ⟨_, rfl⟩, by decide, ⟨_, rfl⟩, by decide⟩

/-- Two streams with a checksum job interleaved. -/
theorem witness_WellBehavedHostIsNeverFlagged :
    wellBehaved .fresh false [0x1BE#12, 0x400#12, 0x531#12, 0x1EF#12, 0x532#12, 0x200#12, 0x300#12, 0x000#12, 0x101#12] = true ∧
    (nextOf (runWords [0x1BE#12, 0x200#12] (State.resetWith ⟨.unbounded, 65535⟩))).isSome = true := by decide

end Sys2Proof.Tests
end

section
/-! PROOFS. The state's invariant, its trace, its flags and its derived outputs (spec 10_state.md R20 to R24). -/

namespace Sys2Proof.Machine

/-! ### Reads and marker tests on part of a buffer -/

/-- A two-byte read sees only the bytes up to its own end. -/
theorem readHalf_take {b : List Byte} {a n : Nat} (h : a + 2 ≤ n) : readHalf (b.take n) a = readHalf b a := by
  simp only [readHalf, readByte, List.getElem?_take_of_lt (show a < n by omega),
    List.getElem?_take_of_lt (show a + 1 < n by omega)]

theorem readHalf_some_length {b : List Byte} {a : Nat} {v : Half} (h : readHalf b a = some v) :
    a + 2 ≤ b.length := by
  by_contra hc
  rw [(readHalf_eq_none_iff b a).mpr (by omega)] at h
  cases h

theorem startsWithMarker_take {b : List Byte} {n : Nat} (h : startsWithMarker b = true) (hn : 2 ≤ n) :
    startsWithMarker (b.take n) = true := by
  obtain ⟨t, rfl⟩ := (startsWithMarker_iff b).mp h
  obtain ⟨k, rfl⟩ := Nat.exists_eq_add_of_le' hn
  rfl

theorem findMarker_of_startsWithMarker {b : List Byte} (h : startsWithMarker b = true) :
    findMarker b = some 0 := by
  obtain ⟨t, rfl⟩ := (startsWithMarker_iff b).mp h
  rfl

/-- What the marker search finds: a marker at the index, and none among the bytes ahead of it (42_reassembler.md R96). -/
theorem findMarker_eq_some_spec {b : List Byte} {idx : Nat} (h : findMarker b = some idx) :
    startsWithMarker (b.drop idx) = true ∧ findMarker (b.take idx) = none := by
  induction b generalizing idx with
  | nil => cases h
  | cons b0 bs ih =>
    cases bs with
    | nil => cases h
    | cons b1 bs =>
      rw [findMarker_two] at h
      split at h
      next hm =>
        obtain ⟨rfl, rfl⟩ := hm
        cases h
        exact ⟨rfl, rfl⟩
      next hm =>
        obtain ⟨k, hk, rfl⟩ := Option.map_eq_some_iff.mp h
        obtain ⟨hdrop, htake⟩ := ih hk
        refine ⟨hdrop, ?_⟩
        cases k with
        | zero => rfl
        | succ k =>
          rw [List.take_succ_cons, List.take_succ_cons, findMarker_two, if_neg hm, ← List.take_succ_cons, htake]
          rfl

/-! ### The quiescent invariant and the phase -/

/-- The three disjuncts of `Q` (10_state.md R24). -/
theorem quiescent_iff (p : Params) (b : List Byte) :
    quiescent p b = true ↔
      findMarker b = none ∨
      (startsWithMarker b = true ∧ readHalf b 2 = none) ∨
      (startsWithMarker b = true ∧ ∃ length, readHalf b 2 = some length ∧
        length.toNat ≤ p.maxItems.val ∧ b.length < frameLen length.toNat) := by
  unfold quiescent
  cases readHalf b 2 <;> simp

theorem quiescent_nil (p : Params) : quiescent p [] = true := rfl

/-- Settles O26: each disjunct of `Q` decides the tests of `Phase`. -/
theorem phaseOfAQuiescentBuffer : Obligations.PhaseOfAQuiescentBuffer := by
  intro p b hq
  rcases (quiescent_iff p b).mp hq with hm | ⟨hs, hl⟩ | ⟨hs, length, hl, hmax, hlt⟩
  · exact .inl ⟨by simp [phaseOf, hm], hm⟩
  · have hlen := (readHalf_eq_none_iff b 2).mp hl
    exact .inr (.inl ⟨by simp [phaseOf, findMarker_of_startsWithMarker hs, hl], hs, hlen⟩)
  · refine .inr (.inr ⟨?_, hs, length, hl, hmax, hlt⟩)
    simp [phaseOf, findMarker_of_startsWithMarker hs, hl, hlt, Nat.not_lt.mpr hmax]

/-! ### The width of `level_q` -/

/-- `W` is the least width that holds `CAP` (10_state.md R22). -/
theorem lt_two_pow_iff_levelWidth_le {c W : Nat} (h : levelWidth (.bounded c) = some W) (V : Nat) :
    c < 2 ^ V ↔ W ≤ V := by
  cases c with
  | zero => cases h; simp
  | succ c => cases h; exact (Nat.log2_lt c.succ_ne_zero).symm

/-- Settles O27: the width is the least one that holds `CAP`, and `LEVEL` ≤ `CAP`. -/
theorem levelFitsItsWidth : Obligations.LevelFitsItsWidth := by
  refine ⟨fun c W h => ⟨(lt_two_pow_iff_levelWidth_le h W).mpr le_rfl,
    fun V => (lt_two_pow_iff_levelWidth_le h V).mp⟩, fun s W hinv h => ?_⟩
  have hfits := hinv.bufferFits
  cases hc : s.params.cap with
  | unbounded => rw [hc] at h; cases h
  | bounded c =>
    rw [hc] at h hfits
    have hW : c < 2 ^ W := (lt_two_pow_iff_levelWidth_le h W).mpr le_rfl
    exact Nat.lt_of_le_of_lt (of_decide_eq_true hfits) hW

/-! ### What one turn of the loop, and the loop, report and leave -/

/-- `Validate` answers for every sequence of at least 6 bytes (41_frame_codec.md R87). -/
theorem validate_isSome {b : List Byte} (h : 6 ≤ b.length) : ∃ v, validate b = some v := by
  unfold validate
  rw [if_neg (by omega)]
  cases hr : readHalf b (b.length - 2) with
  | none => have := (readHalf_eq_none_iff _ _).mp hr; omega
  | some received => exact ⟨_, rfl⟩

/-- On a candidate of step 6, `Decode` only compares checksums (41_frame_codec.md R85, 42_reassembler.md R103). -/
theorem decodeFrame_candidate {p : Params} {b : List Byte} {length : Half} (hs : startsWithMarker b = true)
    (hl : readHalf b 2 = some length) (hmax : length.toNat ≤ p.maxItems.val)
    (hlen : b.length = frameLen length.toNat) :
    ∃ v, validate b = some v ∧ decodeFrame p b =
      if checksumMatches v then
        .ok { length := length, payload := itemsOf ((b.drop 4).take (2 * length.toNat)), checksum := v.received }
      else .checksumMismatch v.expected v.received b := by
  obtain ⟨v, hv⟩ := validate_isSome (b := b) (by rw [hlen]; unfold frameLen; omega)
  refine ⟨v, hv, ?_⟩
  cases hc : checksumMatches v <;> simp [decodeFrame, hs, hl, hlen, Nat.not_lt.mpr hmax, hv, hc]

theorem eventTruthful_candidate {p : Params} {b : List Byte} {length : Half} (hs : startsWithMarker b = true)
    (hl : readHalf b 2 = some length) (hmax : length.toNat ≤ p.maxItems.val)
    (hlen : b.length = frameLen length.toNat) :
    eventTruthful p (eventOf (decodeFrame p b) b) = true := by
  obtain ⟨v, -, hd⟩ := decodeFrame_candidate hs hl hmax hlen
  cases hc : checksumMatches v <;> simp [hd, hc, eventOf, eventTruthful]

/-- An event that reports the truth about bytes of a buffer of `n` bytes (30_encoding.md R62, 60_exceptions.md R131). -/
def SoundReport (p : Params) (n : Nat) (e : Event) : Prop :=
  eventTruthful p e = true ∧ (eventRaw e).length ≤ n

theorem SoundReport.mono {p : Params} {m n : Nat} {e : Event} (h : SoundReport p m e) (hmn : m ≤ n) :
    SoundReport p n e := ⟨h.1, h.2.trans hmn⟩

theorem noiseEvents_sound {p : Params} {b : List Byte} {idx : Nat} (h : findMarker b = some idx) :
    ∀ e ∈ noiseEvents idx b, SoundReport p b.length e := by
  obtain ⟨hs, hnone⟩ := findMarker_eq_some_spec h
  intro e he
  unfold noiseEvents at he
  split at he
  next hpos =>
    obtain rfl := List.mem_singleton.mp he
    have hne : b.take idx ≠ [] := by
      rintro h0
      rcases List.take_eq_nil_iff.mp h0 with rfl | rfl
      · omega
      · cases h
    exact ⟨by simp [eventTruthful, hnone, hne], by simp [eventRaw]⟩
  next => cases he

/-- The bounds check's report of a 4-byte header (42_reassembler.md R100). -/
theorem headerReport_sound {p : Params} {b : List Byte} {length : Half} (hs : startsWithMarker b = true)
    (hl : readHalf b 2 = some length) (hmax : p.maxItems.val < length.toNat) :
    SoundReport p b.length (.malformedFrame .lengthBounds (b.take 4)) := by
  have hlen : 4 ≤ b.length := readHalf_some_length hl
  refine ⟨?_, by simp [eventRaw]⟩
  simp [eventTruthful, startsWithMarker_take hs, readHalf_take, hl, hmax, hlen]

/-- Step 7's report of an extracted candidate (42_reassembler.md R103). -/
theorem candidateReport_sound {p : Params} {b : List Byte} {length : Half} (hs : startsWithMarker b = true)
    (hl : readHalf b 2 = some length) (hmax : length.toNat ≤ p.maxItems.val)
    (hlen : frameLen length.toNat ≤ b.length) :
    SoundReport p b.length (eventOf (decodeFrame p (b.take (frameLen length.toNat)))
      (b.take (frameLen length.toNat))) := by
  have h4 : 4 ≤ frameLen length.toNat := by unfold frameLen; omega
  refine ⟨eventTruthful_candidate (startsWithMarker_take hs (by omega)) ((readHalf_take h4).trans hl) hmax
    (List.length_take_of_le hlen), ?_⟩
  rw [eventOf_raw]
  exact List.length_take_le' _ _

/-- What a turn on `b` must do for the invariant: sound reports; a returning turn leaves a quiescent buffer that is no
longer, a continuing one consumes a header's 4 bytes at least (42_reassembler.md R105, R112). -/
def TurnSound (p : Params) (b : List Byte) : Turn → Prop
  | .stop ev b' =>
    (∀ e ∈ ev, SoundReport p b.length e) ∧ b'.length ≤ b.length ∧ quiescent p b' = true
  | .again ev b' =>
    (∀ e ∈ ev, SoundReport p b.length e) ∧ b'.length + 4 ≤ b.length

theorem drainTurn_sound (p : Params) (b : List Byte) : TurnSound p b (drainTurn p b) := by
  rcases drainTurn_cases p b with ⟨hm, ht⟩ | ⟨idx, hm, hcases⟩
  · rw [ht]
    exact ⟨by simp, le_rfl, (quiescent_iff p b).mpr (.inl hm)⟩
  have hnoise := noiseEvents_sound (p := p) hm
  obtain ⟨hs, -⟩ := findMarker_eq_some_spec hm
  have hdrop : (b.drop idx).length ≤ b.length := by simp
  generalize b.drop idx = b' at *
  have hreports : ∀ e, SoundReport p b'.length e → ∀ e' ∈ noiseEvents idx b ++ [e], SoundReport p b.length e' := by
    intro e he e' he'
    rcases List.mem_append.mp he' with h | h
    · exact hnoise e' h
    · obtain rfl := List.mem_singleton.mp h
      exact he.mono hdrop
  rcases hcases with ⟨hl, ht⟩ | ⟨length, hl, ⟨hmax, ht⟩ | ⟨hmax, hshort, ht⟩ | ⟨hmax, hfull, ht⟩⟩ <;> rw [ht]
  · exact ⟨hnoise, hdrop, (quiescent_iff p b').mpr (.inr (.inl ⟨hs, hl⟩))⟩
  · refine ⟨hreports _ (headerReport_sound hs hl hmax), ?_⟩
    have := readHalf_some_length hl
    rw [List.length_drop]; omega
  · exact ⟨hnoise, hdrop, (quiescent_iff p b').mpr (.inr (.inr ⟨hs, length, hl, hmax, hshort⟩))⟩
  · refine ⟨hreports _ (candidateReport_sound hs hl hmax hfull), ?_⟩
    unfold frameLen at *
    rw [List.length_drop]; omega

/-- Any count of turns above a quarter of the buffer ends the loop: sound reports, and a quiescent buffer that is no
longer (42_reassembler.md R105, R112). -/
theorem drainFuel_sound {p : Params} {n : Nat} {b : List Byte} (hn : b.length < 4 * n) :
    (∀ e ∈ (drainFuel p n b).1, SoundReport p b.length e) ∧
    (drainFuel p n b).2.length ≤ b.length ∧ quiescent p (drainFuel p n b).2 = true := by
  induction n generalizing b with
  | zero => omega
  | succ n ih =>
    have hturn := drainTurn_sound p b
    rw [drainFuel_succ]
    cases ht : drainTurn p b with
    | stop ev b' => rw [ht] at hturn; exact hturn
    | again ev b' =>
      rw [ht] at hturn
      obtain ⟨hev, hb'⟩ := hturn
      obtain ⟨hrest, hlen, hq⟩ := ih (b := b') (by omega)
      refine ⟨fun e he => ?_, by dsimp only; omega, hq⟩
      rcases List.mem_append.mp he with h | h
      · exact hev e h
      · exact (hrest e h).mono (by omega)

theorem drain_sound (p : Params) (b : List Byte) :
    (∀ e ∈ (drain p b).1, SoundReport p b.length e) ∧
    (drain p b).2.length ≤ b.length ∧ quiescent p (drain p b).2 = true :=
  drainFuel_sound (by omega)

/-- What FINISH reports of a quiescent buffer is sound (42_reassembler.md R110). -/
theorem residueEvents_sound {p : Params} {b : List Byte} (hq : quiescent p b = true) :
    ∀ e ∈ residueEvents b, SoundReport p b.length e := by
  intro e he
  unfold residueEvents at he
  split at he
  next => cases he
  next hne =>
    split at he <;> obtain rfl := List.mem_singleton.mp he
    next hm => exact ⟨by simp [eventTruthful, hne, hm], le_rfl⟩
    next hm =>
      have hs : startsWithMarker b = true := by
        rcases (quiescent_iff p b).mp hq with h | ⟨h, -⟩ | ⟨h, -⟩
        · exact absurd h hm
        · exact h
        · exact h
      exact ⟨by simp [eventTruthful, hs, hq], le_rfl⟩

/-! ### What a command does, field by field -/

@[simp] theorem finishedState_params (s : State) : (finishedState s).params = s.params := rfl
@[simp] theorem finishedState_status (s : State) : (finishedState s).status = setFlag .done s.status := rfl
@[simp] theorem finishedState_buf (s : State) : (finishedState s).buf = [] := by
  simp [finishedState, memDrop]
@[simp] theorem finishedState_out (s : State) : (finishedState s).out = s.out ++ residueEvents s.buf := rfl

@[simp] theorem fedState_params (d : Byte) (s : State) : (fedState d s).params = s.params := rfl
@[simp] theorem fedState_status (d : Byte) (s : State) : (fedState d s).status = s.status := rfl
@[simp] theorem fedState_buf (d : Byte) (s : State) :
    (fedState d s).buf = (drain s.params (memAppend s.buf d)).2 := rfl
@[simp] theorem fedState_out (d : Byte) (s : State) :
    (fedState d s).out = s.out ++ (drain s.params (memAppend s.buf d)).1 := rfl

/-- FEED does one of three things (42_reassembler.md R108, R109). -/
theorem execState_feed_cases (d : Byte) (s : State) :
    (stopped s.status = true ∧ execState (.feed d) s = markLate s) ∨
    (stopped s.status = false ∧ s.params.cap = .bounded s.buf.length ∧
      execState (.feed d) s = raiseOverflow s) ∨
    (stopped s.status = false ∧ s.params.cap ≠ .bounded s.buf.length ∧
      execState (.feed d) s = fedState d s) := by
  have h : execFeed d s = .next (execState (.feed d) s) := exec_eq_next (.feed d) s
  simpa only [h, Host.Outcome.next.injEq] using execFeed_cases d s

/-- FINISH does one of two things (42_reassembler.md R108, R110). -/
theorem execState_finish_cases (s : State) :
    (stopped s.status = true ∧ execState .finish s = markLate s) ∨
    (stopped s.status = false ∧ execState .finish s = finishedState s) := by
  have h : execFinish s = .next (execState .finish s) := exec_eq_next .finish s
  simpa only [h, Host.Outcome.next.injEq] using execFinish_cases s

/-- No command changes the parameters (70_reset_and_hazards.md R154). -/
@[simp] theorem execState_params (i : Instr) (s : State) : (execState i s).params = s.params := by
  cases i with
  | nop => rfl
  | feed d => rcases execState_feed_cases d s with ⟨-, h⟩ | ⟨-, -, h⟩ | ⟨-, -, h⟩ <;> simp [h]
  | finish => rcases execState_finish_cases s with ⟨-, h⟩ | ⟨-, h⟩ <;> simp [h]
  | reset => rfl
  | crcInit => rfl
  | crcByte d => rfl

/-- A command only appends to the trace (10_state.md R21). -/
theorem out_prefix_execState (i : Instr) (s : State) : s.out <+: (execState i s).out := by
  cases i with
  | nop => exact List.prefix_rfl
  | feed d => rcases execState_feed_cases d s with ⟨-, h⟩ | ⟨-, -, h⟩ | ⟨-, -, h⟩ <;> simp [h]
  | finish => rcases execState_finish_cases s with ⟨-, h⟩ | ⟨-, h⟩ <;> simp [h]
  | reset => exact List.prefix_rfl
  | crcInit => exact List.prefix_rfl
  | crcByte d => exact List.prefix_rfl

/-- What a command can do to `STATUS`: RESET clears it, FINISH and FEED set one flag, and nothing else writes it
(10_state.md R20). -/
theorem execState_status_cases (i : Instr) (s : State) :
    (i = .reset ∧ (execState i s).status = 0x00#8) ∨
    (i ≠ .reset ∧ ((execState i s).status = s.status ∨
      (i = .finish ∧ (execState i s).status = setFlag .done s.status) ∨
      ((∃ d, i = .feed d) ∧ (execState i s).status = setFlag .ovf s.status) ∨
      ((i = .finish ∨ ∃ d, i = .feed d) ∧ (execState i s).status = setFlag .late s.status))) := by
  cases i with
  | reset => exact .inl ⟨rfl, rfl⟩
  | feed d => rcases execState_feed_cases d s with ⟨-, h⟩ | ⟨-, -, h⟩ | ⟨-, -, h⟩ <;> simp [h]
  | finish => rcases execState_finish_cases s with ⟨-, h⟩ | ⟨-, h⟩ <;> simp [h]
  | nop => exact .inr ⟨nofun, .inl rfl⟩
  | crcInit => exact .inr ⟨nofun, .inl rfl⟩
  | crcByte d => exact .inr ⟨nofun, .inl rfl⟩

/-- Settles O21, by the five things a command can do to `STATUS`. -/
theorem onlyResetClearsFlags : Obligations.OnlyResetClearsFlags := by
  intro i s t h
  rw [exec_eq_next, Host.Outcome.next.injEq] at h
  subst h
  rcases execState_status_cases i s with ⟨rfl, h⟩ | ⟨hi, h | ⟨rfl, h⟩ | ⟨⟨d, rfl⟩, h⟩ | ⟨hlate, h⟩⟩
  · simp [h]
  · simp +contextual [h, hi]
  · simp +contextual [h]
  · simp +contextual [h]
  · simp +contextual [h, hi, hlate]

/-! ### What a step does -/

/-- Every step answers one of four next states: the same one, that of `rst`, that of a command, that of a reserved word. -/
theorem step_next_cases {s t : State} (h : step s = .next t) :
    (s.inbox = [] ∧ t = s) ∨
    (∃ rest, s.inbox = .rst :: rest ∧ t = pinReset { s with inbox := rest }) ∨
    (∃ w rest i, s.inbox = .cmd w :: rest ∧ decode w = .ok i ∧ t = execState i { s with inbox := rest }) ∨
    (∃ w rest r, s.inbox = .cmd w :: rest ∧ decode w = .error r ∧
      t = raiseFlag .ill { s with inbox := rest }) := by
  rcases step_cases s with ⟨hin, hs⟩ | ⟨rest, hin, hs⟩ | ⟨w, rest, hin, hs⟩
  · exact .inl ⟨hin, by simpa [hs, eq_comm] using h⟩
  · exact .inr (.inl ⟨rest, hin, by simpa [hs, eq_comm] using h⟩)
  · rcases acceptWord_cases w { s with inbox := rest } with ⟨i, hd, ha⟩ | ⟨r, hd, ha⟩
    · exact .inr (.inr (.inl ⟨w, rest, i, hin, hd, by simpa [hs, ha, eq_comm] using h⟩))
    · exact .inr (.inr (.inr ⟨w, rest, r, hin, hd, by simpa [hs, ha, eq_comm] using h⟩))

theorem step_params {s t : State} (h : step s = .next t) : t.params = s.params := by
  rcases step_next_cases h with ⟨-, rfl⟩ | ⟨rest, -, rfl⟩ | ⟨w, rest, i, -, -, rfl⟩ | ⟨w, rest, r, -, -, rfl⟩ <;> simp

/-- Settles O24: of what a step can do, only `rst` does not append to the trace. -/
theorem traceOnlyGrows : Obligations.TraceOnlyGrows := by
  intro s t h hrst
  rcases step_next_cases h with ⟨-, rfl⟩ | ⟨rest, hin, -⟩ | ⟨w, rest, i, -, -, rfl⟩ | ⟨w, rest, r, -, -, rfl⟩
  · exact List.prefix_rfl
  · exact absurd hin (hrst rest)
  · exact out_prefix_execState i { s with inbox := rest }
  · exact List.prefix_rfl

/-! ### The invariant -/

/-- An empty buffer and a cleared `STATUS` meet the invariant with any sound trace. -/
theorem inv_of_cleared {s : State} (hp : s.params.wf = true) (hbuf : s.buf = []) (hst : s.status = 0x00#8)
    (hout : ∀ e ∈ s.out, eventTruthful s.params e = true ∧ s.params.cap.admits (eventRaw e).length = true) :
    Inv s where
  paramsLegal := hp
  bufferFits := by rw [hbuf]; exact resetWith_memory_wf s.params
  bufferQuiescent := by rw [hbuf]; exact quiescent_nil s.params
  reservedZero := by rw [hst]; rfl
  notBothStops := by simp [hst]
  doneEmpty _ := hbuf
  overflowFull := by simp [hst]
  reportsTruthful e he := (hout e he).1
  reportsFit e he := (hout e he).2

/-- Settles O19: after `rst` the buffer and the trace are empty and `STATUS` is clear. -/
theorem resetStateSatisfiesInvariant : Obligations.ResetStateSatisfiesInvariant :=
  fun _ hp => inv_of_cleared hp rfl rfl nofun

/-- The invariant speaks neither of `CRC` nor of the host's inputs. -/
theorem Inv.of_same_fields {s t : State} (h : Inv s) (hp : t.params = s.params) (hb : t.buf = s.buf)
    (hst : t.status = s.status) (hout : t.out = s.out) : Inv t := by
  obtain ⟨tp, ti, tb, tc, tst, tout⟩ := t
  subst hp hb hst hout
  exact { h with }

/-- The flags `ILL` and `LATE` are outside the invariant. -/
theorem Inv.raiseFlag {s : State} {f : Flag} (h : Inv s) (hdone : f ≠ .done) (hovf : f ≠ .ovf) :
    Inv (raiseFlag f s) where
  paramsLegal := h.paramsLegal
  bufferFits := h.bufferFits
  bufferQuiescent := h.bufferQuiescent
  reservedZero := by simpa using h.reservedZero
  notBothStops := by simpa [hdone.symm, hovf.symm] using h.notBothStops
  doneEmpty := by simpa [hdone.symm] using h.doneEmpty
  overflowFull := by simpa [hovf.symm] using h.overflowFull
  reportsTruthful := h.reportsTruthful
  reportsFit := h.reportsFit

/-- RESET and `rst` (70_reset_and_hazards.md R151): the buffer is dropped and the reports stay or are dropped with it. -/
theorem Inv.freshInstance {s : State} (h : Inv s) : Inv (freshInstance s) :=
  inv_of_cleared h.paramsLegal (freshInstance_buf s) rfl
    fun e he => ⟨h.reportsTruthful e he, h.reportsFit e he⟩

theorem Inv.pinReset {s : State} (h : Inv s) : Inv (pinReset s) :=
  inv_of_cleared h.paramsLegal (pinReset_buf s) rfl nofun

/-- Sound reports from a buffer within `CAP` may join the trace. -/
theorem Inv.reports_append {s : State} {ev : List Event} {n : Nat} (h : Inv s)
    (hev : ∀ e ∈ ev, SoundReport s.params n e) (hn : s.params.cap.admits n = true) :
    ∀ e ∈ s.out ++ ev, eventTruthful s.params e = true ∧ s.params.cap.admits (eventRaw e).length = true := by
  intro e he
  rcases List.mem_append.mp he with ho | hnew
  · exact ⟨h.reportsTruthful e ho, h.reportsFit e ho⟩
  · obtain ⟨htrue, hlen⟩ := hev e hnew
    exact ⟨htrue, admits_mono hlen hn⟩

/-- The fatal report comes from a running reassembler with a full buffer (60_exceptions.md R142). -/
theorem Inv.raiseOverflow {s : State} (h : Inv s) (hrun : stopped s.status = false)
    (hfull : s.params.cap = .bounded s.buf.length) : Inv (raiseOverflow s) := by
  obtain ⟨hdone, -⟩ := (stopped_eq_false_iff s.status).mp hrun
  have hev : ∀ e ∈ [Event.bufferOverflow], SoundReport s.params s.buf.length e := by
    simp [SoundReport, eventTruthful, eventRaw, hfull]
  have hout := h.reports_append hev h.bufferFits
  exact {
    paramsLegal := h.paramsLegal
    bufferFits := h.bufferFits
    bufferQuiescent := h.bufferQuiescent
    reservedZero := by simpa using h.reservedZero
    notBothStops := by simp [hdone]
    doneEmpty := by simp [hdone]
    overflowFull := fun _ => hfull
    reportsTruthful := fun e he => (hout e he).1
    reportsFit := fun e he => (hout e he).2 }

/-- An accepted byte: the loop leaves a quiescent buffer within `CAP` (42_reassembler.md R109, R112). -/
theorem Inv.fedState {s : State} (d : Byte) (h : Inv s) (hrun : stopped s.status = false)
    (hroom : s.params.cap ≠ .bounded s.buf.length) : Inv (fedState d s) := by
  obtain ⟨hdone, hovf⟩ := (stopped_eq_false_iff s.status).mp hrun
  have hwf : Memory.wf s.params.cap (memAppend s.buf d) := memAppend_wf d h.bufferFits hroom
  obtain ⟨hev, hlen, hq⟩ := drain_sound s.params (memAppend s.buf d)
  have hout := h.reports_append hev hwf
  exact {
    paramsLegal := h.paramsLegal
    bufferFits := admits_mono hlen hwf
    bufferQuiescent := hq
    reservedZero := h.reservedZero
    notBothStops := h.notBothStops
    doneEmpty := by simp [hdone]
    overflowFull := by simp [hovf]
    reportsTruthful := fun e he => (hout e he).1
    reportsFit := fun e he => (hout e he).2 }

/-- The end of a running stream (42_reassembler.md R110). -/
theorem Inv.finishedState {s : State} (h : Inv s) (hrun : stopped s.status = false) : Inv (finishedState s) := by
  obtain ⟨-, hovf⟩ := (stopped_eq_false_iff s.status).mp hrun
  have hout := h.reports_append (residueEvents_sound h.bufferQuiescent) h.bufferFits
  exact {
    paramsLegal := h.paramsLegal
    bufferFits := by rw [finishedState_buf]; exact resetWith_memory_wf s.params
    bufferQuiescent := by rw [finishedState_buf]; exact quiescent_nil s.params
    reservedZero := by simpa using h.reservedZero
    notBothStops := by simp [hovf]
    doneEmpty := fun _ => finishedState_buf s
    overflowFull := by simp [hovf]
    reportsTruthful := fun e he => (hout e he).1
    reportsFit := fun e he => (hout e he).2 }

/-- Every command keeps the invariant. -/
theorem Inv.execState {s : State} (i : Instr) (h : Inv s) : Inv (execState i s) := by
  have hlate : Inv (markLate s) := h.raiseFlag (f := .late) nofun nofun
  cases i with
  | nop => exact h
  | feed d =>
    rcases execState_feed_cases d s with ⟨-, he⟩ | ⟨hrun, hfull, he⟩ | ⟨hrun, hroom, he⟩ <;> rw [he]
    · exact hlate
    · exact h.raiseOverflow hrun hfull
    · exact h.fedState d hrun hroom
  | finish =>
    rcases execState_finish_cases s with ⟨-, he⟩ | ⟨hrun, he⟩ <;> rw [he]
    · exact hlate
    · exact h.finishedState hrun
  | reset => exact h.freshInstance
  | crcInit => exact h.of_same_fields rfl rfl rfl rfl
  | crcByte d => exact h.of_same_fields rfl rfl rfl rfl

theorem Inv.step {s t : State} (h : Inv s) (hstep : step s = .next t) : Inv t := by
  have hinbox (rest : List HostInput) : Inv { s with inbox := rest } := h.of_same_fields rfl rfl rfl rfl
  rcases step_next_cases hstep with ⟨-, rfl⟩ | ⟨rest, -, rfl⟩ | ⟨w, rest, i, -, -, rfl⟩ | ⟨w, rest, r, -, -, rfl⟩
  · exact h
  · exact (hinbox rest).pinReset
  · exact (hinbox rest).execState i
  · exact (hinbox rest).raiseFlag (f := .ill) nofun nofun

/-- Settles O20: each thing a step can do keeps the invariant, and none writes the parameters. -/
theorem everyStepKeepsTheInvariant : Obligations.EveryStepKeepsTheInvariant :=
  ⟨fun _ _ h hstep => h.step hstep, fun _ _ hstep => step_params hstep⟩

end Sys2Proof.Machine
end

section
/-! PROOFS. The command word: fields, decoding, encoding, table rows (spec 30_encoding.md R52 to R56). -/

namespace Sys2Proof.Machine

open Sys2Proof.Laws.EncodedRow (operandOf)

/-! ### The two fields of a word -/

@[simp] theorem opField_append (op : BitVec 4) (d : Byte) : opField (op ++ d) = op :=
  BitVec.extractLsb'_append_eq_left

@[simp] theorem dField_append (op : BitVec 4) (d : Byte) : dField (op ++ d) = d :=
  BitVec.extractLsb'_append_eq_right

/-- A word is its two fields side by side (30_encoding.md R52). -/
theorem opField_append_dField (w : CmdWord) : opField w ++ dField w = w :=
  (BitVec.extractLsb'_append_extractLsb'_eq_extractLsb' rfl).trans BitVec.extractLsb'_eq_self

theorem word_eq_iff (w v : CmdWord) : w = v ↔ opField w = opField v ∧ dField w = dField v := by
  refine ⟨fun h => h ▸ ⟨rfl, rfl⟩, fun ⟨hop, hd⟩ => ?_⟩
  rw [← opField_append_dField w, hop, hd, opField_append_dField]

/-! ### Decoding and encoding -/

/-- The operation code of a command (30_encoding.md R53). -/
def opOf : Instr → BitVec 4
  | .nop => 0x0#4
  | .feed _ => 0x1#4
  | .finish => 0x2#4
  | .reset => 0x3#4
  | .crcInit => 0x4#4
  | .crcByte _ => 0x5#4

/-- The word of a command is its code and its operand side by side. -/
theorem encode_eq_append (i : Instr) : encode i = opOf i ++ operandOf i := by
  cases i <;> rfl

@[simp] theorem opField_encode (i : Instr) : opField (encode i) = opOf i := by
  rw [encode_eq_append, opField_append]

@[simp] theorem dField_encode (i : Instr) : dField (encode i) = operandOf i := by
  rw [encode_eq_append, dField_append]

theorem eq_encode_iff_fields (w : CmdWord) (i : Instr) :
    w = encode i ↔ opField w = opOf i ∧ dField w = operandOf i := by
  rw [word_eq_iff, opField_encode, dField_encode]

theorem decode_encode (i : Instr) : decode (encode i) = .ok i := by
  simp only [decode, opField_encode, dField_encode]
  cases i <;> simp [opOf, operandOf]

/-- Each test of `DecodeCmd` that answers a command fixes both fields of the word (30_encoding.md R56). -/
theorem eq_encode_of_decode {w : CmdWord} {i : Instr} (h : decode w = .ok i) : w = encode i := by
  rw [eq_encode_iff_fields]
  unfold decode at h
  dsimp only at h
  split_ifs at h with hfeed hcrcByte hnop hfinish hreset hcrcInit <;> cases h
  · exact ⟨hfeed, rfl⟩
  · exact ⟨hcrcByte, rfl⟩
  · exact hnop.symm
  · exact hfinish.symm
  · exact hreset.symm
  · exact hcrcInit.symm

/-- A word decodes to a command exactly when it is the command's word (30_encoding.md R54, R56). -/
theorem decode_eq_ok_iff (w : CmdWord) (i : Instr) : decode w = .ok i ↔ w = encode i :=
  ⟨eq_encode_of_decode, fun h => h ▸ decode_encode i⟩

/-- Settles O3: the fields of a command's word pass exactly one test of the decoder, and each test fixes both fields. -/
theorem commandCodecRoundTrip : Obligations.CommandCodecRoundTrip :=
  ⟨fun i _ => decode_encode i, fun _ _ h => (eq_encode_of_decode h).symm⟩

/-- Settles O4: seven of the words are words of commands, and three are reserved. -/
theorem writtenWordsDecode : Obligations.WrittenWordsDecode := by
  unfold Obligations.WrittenWordsDecode
  decide

/-! ### The rows of the table -/

/-- The mask of a row without an operand keeps the whole word. -/
theorem and_FFF (w : CmdWord) : w &&& 0xFFF#12 = w := BitVec.and_allOnes

/-- The mask of a row with an operand keeps bits 11:8. -/
theorem and_F00_eq_iff (w : CmdWord) (op : BitVec 4) : w &&& 0xF00#12 = op ++ 0x00#8 ↔ opField w = op := by
  have hmask : w &&& 0xF00#12 = opField w ++ 0x00#8 := by
    calc w &&& 0xF00#12
        = (opField w ++ dField w) &&& (BitVec.allOnes 4 ++ 0x00#8) := by rw [opField_append_dField]; rfl
      _ = (opField w &&& BitVec.allOnes 4) ++ (dField w &&& 0x00#8) := BitVec.and_append
      _ = opField w ++ 0x00#8 := by rw [BitVec.and_allOnes, BitVec.and_zero]
  rw [hmask, word_eq_iff]
  simp

/-- Settles O1: a row's mask and match fix the fields by which the decoder answers. -/
theorem wordsSelectTheirTableRow : Obligations.WordsSelectTheirTableRow := by
  intro w
  have plain (i : Instr) : w &&& 0xFFF#12 = encode i ↔ decode w = .ok i := by
    rw [and_FFF, decode_eq_ok_iff]
  have withOperand (op : BitVec 4) (i : Instr) (hop : opOf i = op) (hd : operandOf i = dField w) :
      w &&& 0xF00#12 = op ++ 0x00#8 ↔ decode w = .ok i := by
    rw [and_F00_eq_iff, decode_eq_ok_iff, eq_encode_iff_fields, hop, hd, and_iff_left rfl]
  exact ⟨plain .nop, withOperand 0x1#4 (.feed (dField w)) rfl rfl, plain .finish, plain .reset,
    plain .crcInit, withOperand 0x5#4 (.crcByte (dField w)) rfl rfl⟩

end Sys2Proof.Machine
end

section
/-! PROOFS. The assembler line (spec 30_encoding.md R65). -/

namespace Sys2Proof.Machine

/-! ### Hexadecimal digits -/

/-- A digit written is a digit read (00_scope.md R11). -/
theorem hexValue_hexDigit : ∀ v : BitVec 4, hexValue (hexDigit v) = some v := by decide

/-- A character that neither ends a part of a line nor begins a comment (30_encoding.md R65). -/
def isPartChar (c : Char) : Bool := c ≠ ';' && c ≠ ' ' && c ≠ '\t'

theorem isPartChar_hexDigit : ∀ v : BitVec 4, isPartChar (hexDigit v) = true := by decide

theorem isPartChar_mnemonicOf (i : Instr) : (mnemonicOf i).all isPartChar = true := by
  cases i <;> rfl

theorem isPartChar_renderByte (d : Byte) : (renderByte d).all isPartChar = true := by
  simp [renderByte, isPartChar_hexDigit, show isPartChar '0' = true from rfl, show isPartChar 'x' = true from rfl]

theorem parseByte_renderByte (d : Byte) : parseByte (renderByte d) = some d := by
  have hd : d.extractLsb' 4 4 ++ d.extractLsb' 0 4 = d :=
    (BitVec.extractLsb'_append_extractLsb'_eq_extractLsb' rfl).trans BitVec.extractLsb'_eq_self
  simp [parseByte, renderByte, hexValue_hexDigit, hd]

/-! ### The parts of a line -/

theorem isPartChar_spec {c : Char} (hc : isPartChar c = true) : c ≠ ';' ∧ ¬ (c = ' ' ∨ c = '\t') := by
  simpa [isPartChar, and_assoc] using hc

/-- A line without `;` has no comment to drop. -/
theorem dropComment_eq_self {line : List Char} (h : ∀ c ∈ line, c ≠ ';') : dropComment line = line :=
  List.takeWhile_eq_self_iff.mpr fun c hc => decide_eq_true (h c hc)

/-- A run of part characters joins the part being read. -/
theorem splitParts_append {m : List Char} (hm : m.all isPartChar = true) (held rest : List Char) :
    splitParts held (m ++ rest) = splitParts (held ++ m) rest := by
  induction m generalizing held with
  | nil => simp
  | cons c m ih =>
    simp only [List.all_cons, Bool.and_eq_true] at hm
    obtain ⟨hc, hm⟩ := hm
    rw [List.cons_append, splitParts, if_neg (isPartChar_spec hc).2, ih hm, List.append_assoc, List.singleton_append]

/-- A mnemonic, a blank and an operand are read as two parts (30_encoding.md R65). -/
theorem splitParts_operandLine {m t : List Char} (hm : m.all isPartChar = true) (ht : t.all isPartChar = true)
    (hm0 : m ≠ []) (ht0 : t ≠ []) : splitParts [] (dropComment (m ++ ' ' :: t)) = [m, t] := by
  have hline : ∀ c ∈ m ++ ' ' :: t, c ≠ ';' := by
    intro c hc
    rcases List.mem_append.mp hc with h | h
    · exact (isPartChar_spec (List.all_eq_true.mp hm c h)).1
    · rcases List.mem_cons.mp h with rfl | h
      · decide
      · exact (isPartChar_spec (List.all_eq_true.mp ht c h)).1
  have htail : splitParts [] t = [t] := by
    simpa [splitParts, ht0] using splitParts_append ht [] []
  rw [dropComment_eq_self hline, splitParts_append hm, List.nil_append, splitParts, if_pos (.inl rfl), if_neg hm0,
    htail]

/-! ### A whole line -/

theorem mnemonicOf_ne_nil (i : Instr) : mnemonicOf i ≠ [] := by cases i <;> exact List.cons_ne_nil _ _

/-- A line with an operand reads as the command that its mnemonic and its byte make. -/
theorem parseLine_operandLine {i : Instr} {d : Byte} (hplain : plainCommand (mnemonicOf i) = none)
    (hbyte : byteCommand (mnemonicOf i) d = some i) :
    parseLine (mnemonicOf i ++ ' ' :: renderByte d) = .ok (some i) := by
  rw [parseLine, splitParts_operandLine (isPartChar_mnemonicOf i) (isPartChar_renderByte d) (mnemonicOf_ne_nil i)
    (List.cons_ne_nil _ _)]
  simp only [hplain, parseByte_renderByte, hbyte]

theorem parseLine_renderLine (i : Instr) : parseLine (renderLine i) = .ok (some i) := by
  cases i with
  | feed d => exact parseLine_operandLine rfl rfl
  | crcByte d => exact parseLine_operandLine rfl rfl
  | nop => rfl
  | finish => rfl
  | reset => rfl
  | crcInit => rfl

/-- Settles O5: a line's parts are its mnemonic and its operand byte, each of which reads back. -/
theorem assemblerLineRoundTrip : Obligations.AssemblerLineRoundTrip :=
  ⟨parseLine_renderLine, by decide, by decide, by decide⟩

end Sys2Proof.Machine
end

section
/-! PROOFS. `Drain` on a longer buffer, and a stream fed byte by byte (spec 42_reassembler.md R104 to R114). -/

namespace Sys2Proof.Machine

/-! ### The loop without its count of turns -/

/-- A turn that continues consumes a header's 4 bytes at least (42_reassembler.md R105). -/
theorem drainTurn_again_length {p : Params} {ev : List Event} {b b' : List Byte}
    (h : drainTurn p b = .again ev b') : b'.length + 4 ≤ b.length := by
  have hturn := drainTurn_sound p b
  rw [h] at hturn
  exact hturn.2

/-- Turns beyond a quarter of the buffer change nothing (42_reassembler.md R105). -/
theorem drainFuel_eq_of_lt {p : Params} {m n : Nat} {b : List Byte} (hm : b.length < 4 * m) (hn : b.length < 4 * n) :
    drainFuel p m b = drainFuel p n b := by
  induction m generalizing n b with
  | zero => omega
  | succ m ih =>
    obtain ⟨n, rfl⟩ : ∃ k, n = k + 1 := ⟨n - 1, by omega⟩
    rw [drainFuel_succ, drainFuel_succ]
    cases ht : drainTurn p b with
    | stop ev b' => rfl
    | again ev b' =>
      have hlen := drainTurn_again_length ht
      simp only [ih (b := b') (n := n) (by omega) (by omega)]

/-- `Drain` is one turn and then, where the turn continues, `Drain` of what it leaves (42_reassembler.md R104). -/
theorem drain_eq (p : Params) (b : List Byte) :
    drain p b = match drainTurn p b with
      | .stop ev b' => (ev, b')
      | .again ev b' => (ev ++ (drain p b').1, (drain p b').2) := by
  rw [drain, drainFuel_succ]
  cases ht : drainTurn p b with
  | stop ev b' => rfl
  | again ev b' =>
    have hlen := drainTurn_again_length ht
    have hfuel : drainFuel p (b.length / 4) b' = drain p b' := drainFuel_eq_of_lt (by omega) (by omega)
    simp only [hfuel]

theorem drain_of_stop {p : Params} {b b' : List Byte} {ev : List Event} (h : drainTurn p b = .stop ev b') :
    drain p b = (ev, b') := by
  rw [drain_eq, h]

theorem drain_of_again {p : Params} {b b' : List Byte} {ev : List Event} (h : drainTurn p b = .again ev b') :
    drain p b = (ev ++ (drain p b').1, (drain p b').2) := by
  rw [drain_eq, h]

/-- A quiescent buffer drains no further (42_reassembler.md R112). -/
theorem drain_of_quiescent {p : Params} {b : List Byte} (hq : quiescent p b = true) : drain p b = ([], b) := by
  apply drain_of_stop
  rcases (quiescent_iff p b).mp hq with hm | ⟨hs, hl⟩ | ⟨hs, length, hl, hmax, hlt⟩
  · simp [drainTurn, hm]
  · simp [drainTurn, findMarker_of_startsWithMarker hs, frameTurn, hl, noiseEvents]
  · simp [drainTurn, findMarker_of_startsWithMarker hs, frameTurn, hl, Nat.not_lt.mpr hmax, hlt, noiseEvents]

/-! ### The loop on a buffer with more bytes behind it -/

/-- Bytes behind a found marker do not move it (42_reassembler.md R96). -/
theorem findMarker_append {b : List Byte} {idx : Nat} (h : findMarker b = some idx) (c : List Byte) :
    findMarker (b ++ c) = some idx := by
  induction b generalizing idx with
  | nil => cases h
  | cons b0 bs ih =>
    cases bs with
    | nil => cases h
    | cons b1 bs =>
      rw [findMarker_two] at h
      rw [List.cons_append, List.cons_append, findMarker_two]
      split_ifs at h ⊢
      · exact h
      · obtain ⟨k, hk, rfl⟩ := Option.map_eq_some_iff.mp h
        rw [← List.cons_append, ih hk]
        rfl

theorem findMarker_some_length {b : List Byte} {idx : Nat} (h : findMarker b = some idx) : idx + 2 ≤ b.length := by
  obtain ⟨t, ht⟩ := (startsWithMarker_iff _).mp (findMarker_eq_some_spec h).1
  have := congrArg List.length ht
  simp only [List.length_drop, List.length_cons] at this
  omega

/-- Events emitted ahead of a turn's own. -/
def Turn.prepend (ev : List Event) : Turn → Turn
  | .stop ev' b => .stop (ev ++ ev') b
  | .again ev' b => .again (ev ++ ev') b

/-- Steps 4 to 7 only add to what step 3 has emitted. -/
theorem frameTurn_eq_prepend (p : Params) (ev : List Event) (b : List Byte) :
    frameTurn p ev b = (frameTurn p [] b).prepend ev := by
  unfold frameTurn
  cases readHalf b 2 with
  | none => simp [Turn.prepend]
  | some length =>
    dsimp only
    split_ifs <;> simp [Turn.prepend]

theorem drainTurn_of_findMarker {p : Params} {b : List Byte} {idx : Nat} (h : findMarker b = some idx) :
    drainTurn p b = frameTurn p (noiseEvents idx b) (b.drop idx) := by
  rw [drainTurn, h]

theorem drainTurn_of_startsWithMarker {p : Params} {b : List Byte} (h : startsWithMarker b = true) :
    drainTurn p b = frameTurn p [] b :=
  drainTurn_of_findMarker (findMarker_of_startsWithMarker h)

/-- Noise ahead of a marker is reported, and `Drain` goes on at the marker (42_reassembler.md R98). -/
theorem drain_of_findMarker {p : Params} {b : List Byte} {idx : Nat} (h : findMarker b = some idx) :
    drain p b = (noiseEvents idx b ++ (drain p (b.drop idx)).1, (drain p (b.drop idx)).2) := by
  rw [drain_eq p b, drain_eq p (b.drop idx), drainTurn_of_findMarker h,
    drainTurn_of_startsWithMarker (findMarker_eq_some_spec h).1, frameTurn_eq_prepend]
  cases frameTurn p [] (b.drop idx) <;> simp [Turn.prepend]

/-- A turn that continues does the same with more bytes behind the buffer. -/
theorem frameTurn_again_append {p : Params} {ev ev' : List Event} {b b' : List Byte}
    (h : frameTurn p ev b = .again ev' b') (c : List Byte) : frameTurn p ev (b ++ c) = .again ev' (b' ++ c) := by
  unfold frameTurn at h ⊢
  cases hl : readHalf b 2 with
  | none => simp [hl] at h
  | some length =>
    have h4 : 4 ≤ b.length := readHalf_some_length hl
    simp only [hl] at h
    simp only [readHalf_append b c 2 length hl]
    split_ifs at h with hmax hshort
    · obtain ⟨rfl, rfl⟩ := Turn.again.inj h
      rw [if_pos hmax, List.take_append_of_le_length h4, List.drop_append_of_le_length h4]
    · obtain ⟨rfl, rfl⟩ := Turn.again.inj h
      have htotal : frameLen length.toNat ≤ b.length := Nat.not_lt.mp hshort
      rw [if_neg hmax, if_neg (by simp; omega), List.take_append_of_le_length htotal,
        List.drop_append_of_le_length htotal]

theorem noiseEvents_append {b : List Byte} {idx : Nat} (h : idx ≤ b.length) (c : List Byte) :
    noiseEvents idx (b ++ c) = noiseEvents idx b := by
  rw [noiseEvents, noiseEvents, List.take_append_of_le_length h]

theorem drainTurn_again_append {p : Params} {ev : List Event} {b b' : List Byte}
    (h : drainTurn p b = .again ev b') (c : List Byte) : drainTurn p (b ++ c) = .again ev (b' ++ c) := by
  cases hm : findMarker b with
  | none => simp [drainTurn, hm] at h
  | some idx =>
    have hlen := findMarker_some_length hm
    rw [drainTurn_of_findMarker hm] at h
    rw [drainTurn_of_findMarker (findMarker_append hm c), noiseEvents_append (by omega),
      List.drop_append_of_le_length (by omega)]
    exact frameTurn_again_append h c

/-- A turn that returns has only skipped the noise ahead of a marker. -/
theorem drainTurn_stop_cases {p : Params} {ev : List Event} {b b' : List Byte} (h : drainTurn p b = .stop ev b') :
    (ev = [] ∧ b' = b) ∨ ∃ idx, findMarker b = some idx ∧ ev = noiseEvents idx b ∧ b' = b.drop idx := by
  rcases drainTurn_cases p b with ⟨-, ht⟩ | ⟨idx, hm, ⟨-, ht⟩ | ⟨length, -, ⟨-, ht⟩ | ⟨-, -, ht⟩ | ⟨-, -, ht⟩⟩⟩ <;>
    rw [ht] at h
  · cases h; exact .inl ⟨rfl, rfl⟩
  · cases h; exact .inr ⟨idx, hm, rfl, rfl⟩
  · cases h
  · cases h; exact .inr ⟨idx, hm, rfl, rfl⟩
  · cases h

/-- Draining early and going on with what is left changes nothing (42_reassembler.md R114). -/
theorem drain_append (p : Params) (b c : List Byte) :
    drain p (b ++ c) = ((drain p b).1 ++ (drain p ((drain p b).2 ++ c)).1, (drain p ((drain p b).2 ++ c)).2) := by
  induction hn : b.length using Nat.strong_induction_on generalizing b with
  | _ n ih =>
    cases ht : drainTurn p b with
    | again ev b' =>
      have hlen := drainTurn_again_length ht
      rw [drain_of_again ht, drain_of_again (drainTurn_again_append ht c), ih b'.length (by omega) b' rfl]
      simp
    | stop ev b' =>
      rw [drain_of_stop ht]
      rcases drainTurn_stop_cases ht with ⟨rfl, rfl⟩ | ⟨idx, hm, rfl, rfl⟩
      · rfl
      · have hlen := findMarker_some_length hm
        rw [drain_of_findMarker (findMarker_append hm c), noiseEvents_append (by omega),
          List.drop_append_of_le_length (by omega)]

/-! ### Runs of commands -/

@[simp] theorem runInstrs_nil (s : State) : runInstrs [] s = .next s := rfl

@[simp] theorem runInstrs_cons (i : Instr) (is : List Instr) (s : State) :
    runInstrs (i :: is) s = runInstrs is (execState i s) := by
  rw [runInstrs, exec_eq_next, thenRun]

/-- A stream fed byte by byte, with room for all of it, is one `FeedChunk` (42_reassembler.md R111, R114). -/
theorem runInstrs_feed_eq_feedChunk {s : State} {c : List Byte} (hrun : stopped s.status = false)
    (hq : quiescent s.params s.buf = true) (hroom : s.params.cap.admits (s.buf.length + c.length) = true) :
    runInstrs (c.map .feed) s =
      .next { s with buf := (feedChunk s.params s.buf c).2, out := s.out ++ (feedChunk s.params s.buf c).1 } := by
  induction c generalizing s with
  | nil => simp [feedChunk, drain_of_quiescent hq]
  | cons d c ih =>
    have hnotFull : s.params.cap ≠ .bounded s.buf.length := by
      intro hfull
      simp [hfull, Capacity.admits] at hroom
    have hfed : execState (.feed d) s = fedState d s := by
      rcases execState_feed_cases d s with ⟨h, -⟩ | ⟨-, h, -⟩ | ⟨-, -, h⟩
      · rw [hrun] at h; cases h
      · exact absurd h hnotFull
      · exact h
    obtain ⟨-, hlen, hq'⟩ := drain_sound s.params (memAppend s.buf d)
    have hroom' : s.params.cap.admits ((fedState d s).buf.length + c.length) = true :=
      admits_mono (by simp at hlen ⊢; omega) hroom
    rw [List.map_cons, runInstrs_cons, hfed, ih (s := fedState d s) hrun hq' hroom']
    have hchunk : feedChunk s.params s.buf (d :: c) = drain s.params (memAppend s.buf d ++ c) := by
      simp [feedChunk, memAppend]
    rw [hchunk, drain_append]
    simp [feedChunk, fedState, emitAll]

end Sys2Proof.Machine
end

section
/-! PROOFS. What `Decode` answers, and the frame of a payload (spec 41_frame_codec.md R83 to R92). -/

namespace Sys2Proof.Machine

/-! ### Reads behind leading bytes -/

@[simp] theorem readHalf_cons (b : Byte) (m : Memory) (a : Nat) : readHalf (b :: m) (a + 1) = readHalf m a := rfl

/-- The last two bytes of a sequence that ends with a value sent big-endian are that value. -/
theorem readHalf_append_be16 (b : List Byte) (v : Half) : readHalf (b ++ be16 v) b.length = some v :=
  (readHalf_eq_some_iff _ _ _).mpr ⟨v.extractLsb' 8 8, v.extractLsb' 0 8, by simp [be16], by simp [be16],
    (BE16_extract v).symm⟩

theorem validate_append_be16 {b : List Byte} (h : 4 ≤ b.length) (v : Half) :
    validate (b ++ be16 v) = some { expected := crc16 b, received := v } := by
  have hlen : (b ++ be16 v).length - 2 = b.length := by simp
  rw [validate, if_neg (by simp; omega), hlen, readHalf_append_be16, List.take_left']
  · rfl
  · rfl

/-! ### What `Decode` answers -/

/-- A sequence is malformed, or it is a candidate of step 6 (41_frame_codec.md R85). -/
theorem decodeFrame_cases (p : Params) (b : List Byte) :
    (∃ reason, decodeFrame p b = .malformedFrame reason b) ∨
    ∃ length, startsWithMarker b = true ∧ readHalf b 2 = some length ∧ b.length = frameLen length.toNat ∧
      length.toNat ≤ p.maxItems.val := by
  cases hs : startsWithMarker b with
  | false => exact .inl ⟨.markerMissing, by simp [decodeFrame, hs]⟩
  | true =>
    cases hl : readHalf b 2 with
    | none => exact .inl ⟨.lengthInconsistent, by simp [decodeFrame, hs, hl]⟩
    | some length =>
      by_cases hlen : b.length = frameLen length.toNat
      · by_cases hmax : length.toNat ≤ p.maxItems.val
        · exact .inr ⟨length, rfl, rfl, hlen, hmax⟩
        · exact .inl ⟨.lengthBounds, by simp [decodeFrame, hs, hl, hlen, Nat.not_le.mp hmax]⟩
      · exact .inl ⟨.lengthInconsistent, by simp [decodeFrame, hs, hl, hlen]⟩

/-- `Validate` reads the last two bytes as the received checksum (41_frame_codec.md R87). -/
theorem readHalf_of_validate {b : List Byte} {v : Validation} (h : validate b = some v) :
    readHalf b (b.length - 2) = some v.received := by
  unfold validate at h
  split at h
  · cases h
  · obtain ⟨received, hr, rfl⟩ := Option.map_eq_some_iff.mp h
    exact hr

/-- Where a decoded frame's fields stand in its bytes (41_frame_codec.md R85). -/
theorem decodeFrame_ok {p : Params} {b : List Byte} {f : Frame} (h : decodeFrame p b = .ok f) :
    startsWithMarker b = true ∧ readHalf b 2 = some f.length ∧ b.length = frameLen f.length.toNat ∧
      f.payload = itemsOf ((b.drop 4).take (2 * f.length.toNat)) ∧ readHalf b (b.length - 2) = some f.checksum := by
  rcases decodeFrame_cases p b with ⟨reason, hd⟩ | ⟨length, hs, hl, hlen, hmax⟩
  · rw [h] at hd; cases hd
  · obtain ⟨v, hv, hd⟩ := decodeFrame_candidate hs hl hmax hlen
    rw [h] at hd
    split at hd <;> cases hd
    exact ⟨hs, hl, hlen, rfl, readHalf_of_validate hv⟩

theorem length_of_decodeFrame_mismatch {p : Params} {b raw : List Byte} {expected received : Half}
    (h : decodeFrame p b = .checksumMismatch expected received raw) :
    ∃ length : Half, b.length = frameLen length.toNat := by
  rcases decodeFrame_cases p b with ⟨reason, hd⟩ | ⟨length, -, -, hlen, -⟩
  · rw [h] at hd; cases hd
  · exact ⟨length, hlen⟩

/-! ### The frame of a payload -/

theorem encodeFrame_eq_some_iff (p : List Half) (f : List Byte) :
    encodeFrame p = some f ↔ p.length ≤ 65535 ∧ f = frameOf p := by
  rw [encodeFrame, frameOf]
  split_ifs with h <;> simp [h, eq_comm]

@[simp] theorem frameBody_length (p : List Half) : (frameBody p).length = 4 + 2 * p.length := by
  simp [frameBody, marker]; omega

@[simp] theorem frameOf_length (p : List Half) : (frameOf p).length = frameLen p.length := by
  simp [frameOf, frameLen]

theorem startsWithMarker_frameOf (p : List Half) : startsWithMarker (frameOf p) = true := rfl

theorem readHalf_frameOf (p : List Half) : readHalf (frameOf p) 2 = some (BitVec.ofNat 16 p.length) :=
  congrArg some (BE16_extract _)

/-- The length field of an admitted payload holds its number of items. -/
theorem toNat_itemCount {q : Params} {p : List Half} (h : p.length ≤ q.maxItems.val) :
    (BitVec.ofNat 16 p.length).toNat = p.length := by
  have := q.maxItems.isLt
  rw [BitVec.toNat_ofNat, Nat.mod_eq_of_lt (by omega)]

/-- `Decode` inverts `Encode` (41_frame_codec.md R92). -/
theorem decodeFrame_frameOf {q : Params} {p : List Half} (h : p.length ≤ q.maxItems.val) :
    decodeFrame q (frameOf p) =
      .ok { length := BitVec.ofNat 16 p.length, payload := p, checksum := crc16 (frameBody p) } := by
  have hp := toNat_itemCount h
  obtain ⟨v, hv, hd⟩ := decodeFrame_candidate (startsWithMarker_frameOf p) (readHalf_frameOf p) (hp.symm ▸ h)
    (by rw [frameOf_length, hp])
  have hpayload : ((frameOf p).drop 4).take (2 * p.length) = be16s p := by
    simp [frameOf, frameBody, marker, be16, List.take_left' (be16s_length p)]
  rw [frameOf, validate_append_be16 (by simp), Option.some.injEq] at hv
  subst hv
  rw [hd, hp, hpayload, itemsOf_be16s]
  simp [checksumMatches]

/-- The frame of an admitted payload drains to its one report (42_reassembler.md R104). -/
theorem drain_frameOf {q : Params} {p : List Half} (h : p.length ≤ q.maxItems.val) :
    drain q (frameOf p) = ([decodedReport p (frameOf p)], []) := by
  have hp := toNat_itemCount h
  have hturn : drainTurn q (frameOf p) = .again [decodedReport p (frameOf p)] [] := by
    rw [drainTurn_of_startsWithMarker (startsWithMarker_frameOf p), frameTurn, readHalf_frameOf]
    dsimp only
    rw [hp, if_neg (Nat.not_lt.mpr h), ← frameOf_length, if_neg (Nat.lt_irrefl _), List.take_length, List.drop_length,
      decodeFrame_frameOf h]
    rfl
  rw [drain_of_again hturn, drain_of_quiescent (quiescent_nil q)]
  rfl

end Sys2Proof.Machine
end

section
/-! PROOFS. The pseudo-commands (spec 30_encoding.md R66). -/

namespace Sys2Proof.Machine

theorem expandChunk_of_ne_nil {bytes : List Byte} (h : bytes ≠ []) : expandChunk bytes = bytes.map .feed :=
  if_neg h

/-- CRC_BYTE for each byte in turn is `CrcSpan` (40_crc_engine.md R73). -/
theorem runInstrs_crcByte (s : State) (bytes : List Byte) :
    runInstrs (bytes.map .crcByte) s = .next { s with crc := crcSpan s.crc bytes } := by
  induction bytes generalizing s with
  | nil => rfl
  | cons d bytes ih =>
    rw [List.map_cons, runInstrs_cons, ih]
    rfl

/-- CRC_INIT and then the bytes leave `compute(bytes)` in `CRC` (40_crc_engine.md R74). -/
theorem runInstrs_crcCompute (s : State) (bytes : List Byte) :
    runInstrs (.crcInit :: bytes.map .crcByte) s = .next { s with crc := crc16 bytes } := by
  rw [runInstrs_cons, runInstrs_crcByte]
  simp [execState, crc16, crcXorOut]

theorem frameOf_ne_nil (p : List Half) : frameOf p ≠ [] := List.cons_ne_nil _ _

theorem expandPseudo_sendFrame {p : List Half} {f : List Byte} (h : encodeFrame p = some f) :
    expandPseudo (.sendFrame p) = some (f.map .feed) := by
  obtain ⟨-, rfl⟩ := (encodeFrame_eq_some_iff p f).mp h
  rw [expandPseudo, h, Option.map_some, expandChunk_of_ne_nil (frameOf_ne_nil p)]

/-- A frame fed to an empty running reassembler with room is reported, nothing else changes (41_frame_codec.md R92). -/
theorem runInstrs_feed_frameOf {s : State} {p : List Half} (hrun : stopped s.status = false) (hbuf : s.buf = [])
    (hp : p.length ≤ s.params.maxItems.val) (hroom : s.params.cap.admits (frameLen p.length) = true) :
    runInstrs ((frameOf p).map .feed) s = .next { s with out := s.out ++ [decodedReport p (frameOf p)] } := by
  have hchunk : feedChunk s.params s.buf (frameOf p) = ([decodedReport p (frameOf p)], []) := by
    rw [feedChunk, hbuf, List.nil_append, drain_frameOf hp]
  rw [runInstrs_feed_eq_feedChunk hrun (hbuf ▸ quiescent_nil s.params) (by simpa [hbuf] using hroom), hchunk, ← hbuf]

theorem runInstrs_single (i : Instr) (s : State) : runInstrs [i] s = exec i s := by
  rw [runInstrs_cons, runInstrs_nil, exec_eq_next]

/-- Settles O53: a chunk fed byte by byte is one `FeedChunk`, a checksum job is one `CrcSpan`, and a frame decodes to
its payload. -/
theorem pseudoCommandsDoWhatTheyStandFor : Obligations.PseudoCommandsDoWhatTheyStandFor := by
  refine ⟨?chunk, rfl, fun _ => rfl, fun _ _ => expandPseudo_sendFrame, rfl, ?runChunk, ?runFinish, ?runCrc, ?runFrame,
    ?runNew⟩
  case chunk => exact fun bytes hne => congrArg some (expandChunk_of_ne_nil hne)
  case runChunk =>
    intro s bytes hne hrun hq hroom
    exact ⟨_, congrArg some (expandChunk_of_ne_nil hne), runInstrs_feed_eq_feedChunk hrun hq hroom⟩
  case runFinish => exact fun s => ⟨_, rfl, runInstrs_single .finish s⟩
  case runCrc => exact fun s bytes => ⟨_, rfl, runInstrs_crcCompute s bytes⟩
  case runFrame =>
    intro s p hwf hrun hbuf hp hroom
    have hencode : encodeFrame p = some (frameOf p) :=
      (encodeFrame_eq_some_iff p _).mpr ⟨of_decide_eq_true hwf, rfl⟩
    exact ⟨_, expandPseudo_sendFrame hencode, runInstrs_feed_frameOf hrun hbuf hp hroom⟩
  case runNew => exact fun s => ⟨_, rfl, runInstrs_single .reset s⟩

end Sys2Proof.Machine
end

section
/-! PROOFS. The event port: symbols, packets and the receiver (spec 30_encoding.md R58 to R62). -/

namespace Sys2Proof.Machine

/-! ### Symbols -/

@[simp] theorem symbolSop_packSymbol (sop eop : Bool) (b : Byte) : symbolSop (packSymbol sop eop b) = sop := by
  cases sop <;> cases eop <;> simp [symbolSop, packSymbol]

@[simp] theorem symbolEop_packSymbol (sop eop : Bool) (b : Byte) : symbolEop (packSymbol sop eop b) = eop := by
  cases sop <;> cases eop <;> simp [symbolEop, packSymbol]

@[simp] theorem symbolByte_packSymbol (sop eop : Bool) (b : Byte) : symbolByte (packSymbol sop eop b) = b := by
  apply BitVec.eq_of_getLsbD_eq
  intro i hi
  cases sop <;> cases eop <;> interval_cases i <;> simp [symbolByte, packSymbol]

/-- The symbol at each place of a packet (30_encoding.md R58). -/
theorem getElem?_packSymbols (first : Bool) (bs : List Byte) (i : Nat) :
    (packSymbols first bs)[i]? =
      bs[i]?.map (packSymbol (first && decide (i = 0)) (decide (i + 1 = bs.length))) := by
  induction bs generalizing first i with
  | nil => rfl
  | cons b bs ih =>
    cases i with
    | zero => cases bs <;> simp [packSymbols]
    | succ i => simp [packSymbols, ih]

@[simp] theorem packSymbols_length (first : Bool) (bs : List Byte) : (packSymbols first bs).length = bs.length := by
  induction bs generalizing first with
  | nil => rfl
  | cons b bs ih => simp [packSymbols, ih]

/-! ### Packets -/

@[simp] theorem packetOf_length (e : Event) : (packetOf e).length = (packetTail e).length + 1 := by
  simp [packetOf, packetBytes]

theorem packetOf_ne_nil (e : Event) : packetOf e ≠ [] := List.cons_ne_nil _ _

/-- `sop` on the first symbol alone, `eop` on the last alone, a byte in each (30_encoding.md R58). -/
theorem packetOf_symbol {e : Event} {i : Nat} {x : Symbol} (h : (packetOf e)[i]? = some x) :
    symbolSop x = decide (i = 0) ∧ symbolEop x = decide (i + 1 = (packetOf e).length) ∧
      (packetBytes e)[i]? = some (symbolByte x) := by
  rw [packetOf, getElem?_packSymbols] at h
  obtain ⟨b, hb, rfl⟩ := Option.map_eq_some_iff.mp h
  simp [packetOf, hb]

/-- The packet of an encoded payload is its frame without the marker (30_encoding.md R60). -/
theorem packetBytes_decodedReport (p : List Half) :
    packetBytes (decodedReport p (frameOf p)) =
      0x01#8 :: (be16 (BitVec.ofNat 16 p.length) ++ be16s p ++ be16 (crc16 (frameBody p))) := rfl

/-- The checksum of the frame of [1,2,3] (30_encoding.md R60). -/
theorem crc16_frameBody_example : crc16 (frameBody [0x0001#16, 0x0002#16, 0x0003#16]) = 0x6271#16 := by
  simp [crc16, crcSpan, crcStep, crcBit, crcInitValue, crcXorOut, crcPoly, frameBody, be16s, be16, marker, marker0,
    marker1]

/-- Settles O54: the symbols by their place in the packet, the bytes by the event. -/
theorem packetsAreDelimited : Obligations.PacketsAreDelimited := by
  refine ⟨fun e => ⟨?_, packetOf_ne_nil e, fun _ _ => packetOf_symbol⟩, fun _ _ _ _ => rfl, ?_, fun _ _ _ => rfl,
    fun _ => ⟨rfl, rfl, rfl, rfl, rfl⟩, rfl, ?_⟩
  · exact packSymbols_length true (packetBytes e)
  · intro p f hf
    obtain ⟨-, rfl⟩ := (encodeFrame_eq_some_iff p f).mp hf
    exact packetBytes_decodedReport p
  · rw [packetOf, packetBytes_decodedReport, crc16_frameBody_example]
    rfl

/-! ### The receiver -/

@[simp] theorem reasonOfCode_reasonCode (r : Reason) : reasonOfCode (reasonCode r) = some r := by
  cases r <;> rfl

/-- A truthful `FrameDecoded` has its fields where the receiver looks for them (30_encoding.md R60, R62). -/
theorem parsePacket_frameDecoded {p : Params} {raw : List Byte} {f : Frame} (h : decodeFrame p raw = .ok f) :
    parsePacket (packetBytes (.frameDecoded f.length f.payload f.checksum raw)) =
      some (.frameDecoded f.length f.payload f.checksum raw) := by
  obtain ⟨hs, hl, hlen, hpayload, hsum⟩ := decodeFrame_ok h
  obtain ⟨t, rfl⟩ := (startsWithMarker_iff raw).mp hs
  match t with
  | [] | [_] =>
    simp only [List.length_cons, List.length_nil, frameLen] at hlen
    omega
  | l1 :: l0 :: rest =>
    have hlength : BE16 l1 l0 = f.length := Option.some.inj hl
    have hrest : rest.length = 2 * f.length.toNat + 2 := by
      simp [frameLen] at hlen; omega
    rw [hlen, show frameLen f.length.toNat - 2 = 2 * f.length.toNat + 1 + 1 + 1 + 1 by unfold frameLen; omega] at hsum
    simp only [readHalf_cons] at hsum
    simp [packetBytes, eventCode, packetTail, parsePacket, hlength, hrest, hpayload, hsum, marker]

theorem parsePacket_packetBytes {p : Params} {e : Event} (h : eventTruthful p e = true) :
    parsePacket (packetBytes e) = some e := by
  cases e with
  | frameDecoded length payload checksum raw =>
    exact parsePacket_frameDecoded (f := ⟨length, payload, checksum⟩) (eq_of_beq h)
  | checksumMismatch expected received raw =>
    simp [packetBytes, eventCode, packetTail, parsePacket, be16]
  | malformedFrame reason raw => simp [packetBytes, eventCode, packetTail, parsePacket]
  | noiseDiscarded raw => rfl
  | incompleteFrame raw => rfl
  | bufferOverflow => rfl

/-- Inside a packet the receiver collects the bytes up to the last one (30_encoding.md R62). -/
theorem receive_packetRest {held bs : List Byte} {e : Event} (hne : bs ≠ []) (h : parsePacket (held ++ bs) = some e)
    (rest : List Symbol) :
    receive (some held) (packSymbols false bs ++ rest) = (receive none rest).map (e :: ·) := by
  induction bs generalizing held with
  | nil => exact absurd rfl hne
  | cons b bs ih =>
    cases bs with
    | nil => simp [packSymbols, receive, h]
    | cons b' bs =>
      rw [packSymbols, List.cons_append, receive]
      simp [ih (held := held ++ [b]) (List.cons_ne_nil _ _) (by simpa using h)]

theorem receive_packetOf {e : Event} (h : parsePacket (packetBytes e) = some e) (rest : List Symbol) :
    receive none (packetOf e ++ rest) = (receive none rest).map (e :: ·) := by
  rw [packetBytes] at h
  rw [packetOf, packetBytes, packSymbols, List.cons_append, receive]
  cases ht : packetTail e with
  | nil => simp [ht ▸ h, packSymbols]
  | cons b bs => simp [receive_packetRest (held := [eventCode e]) (List.cons_ne_nil b bs) (ht ▸ h)]

/-- A trace whose packets each parse is received whole. -/
theorem receive_symbolsOf {ev : List Event} (h : ∀ e ∈ ev, parsePacket (packetBytes e) = some e) :
    receive none (symbolsOf ev) = some ev := by
  induction ev with
  | nil => rfl
  | cons e ev ih =>
    obtain ⟨he, hev⟩ := List.forall_mem_cons.mp h
    rw [symbolsOf, List.flatMap_cons, receive_packetOf he]
    exact congrArg (Option.map (e :: ·)) (ih hev)

/-- Settles O55: the reports of a sound trace are truthful, so that each packet parses to its event. -/
theorem receiverRecoversTheTrace : Obligations.ReceiverRecoversTheTrace :=
  fun _ h => receive_symbolsOf fun e he => parsePacket_packetBytes (h.reportsTruthful e he)

/-! ### The length of a packet -/

/-- Settles O56: a truthful report's raw bytes have the length of what they hold, and no report is longer than `CAP`. -/
theorem packetLengthBounds : Obligations.PacketLengthBounds := by
  intro s e hinv he
  have htrue := hinv.reportsTruthful e he
  have hfits := hinv.reportsFit e he
  cases e with
  | frameDecoded length payload checksum raw =>
    obtain ⟨-, -, hlen, -, -⟩ := decodeFrame_ok (f := ⟨length, payload, checksum⟩) (eq_of_beq htrue)
    have := length.isLt
    simp [packetTail, hlen, frameLen]
    omega
  | checksumMismatch expected received raw =>
    obtain ⟨length, hlen⟩ := length_of_decodeFrame_mismatch (eq_of_beq htrue)
    have := length.isLt
    simp [packetTail, hlen, frameLen]
    omega
  | malformedFrame reason raw =>
    simp only [eventTruthful, Bool.and_eq_true, beq_iff_eq] at htrue
    obtain ⟨⟨⟨hreason, hlen⟩, -⟩, -⟩ := htrue
    exact ⟨hreason, by simp [packetTail, hlen]⟩
  | noiseDiscarded raw =>
    simp only [eventTruthful, Bool.and_eq_true, bne_iff_ne] at htrue
    have hpos : 1 ≤ raw.length := List.length_pos_iff.mpr htrue.1
    exact ⟨by simpa [packetTail] using hpos, by simpa [packetTail, eventRaw] using hfits⟩
  | incompleteFrame raw =>
    simp only [eventTruthful, Bool.and_eq_true] at htrue
    obtain ⟨t, rfl⟩ := (startsWithMarker_iff raw).mp htrue.1
    exact ⟨by simp [packetTail], by simpa [packetTail, eventRaw] using hfits⟩
  | bufferOverflow => rfl

end Sys2Proof.Machine
end

section
/-! PROOFS. The handshake of the event port (spec 30_encoding.md R52, R58; 70_reset_and_hazards.md R160). -/

namespace Sys2Proof.Machine

theorem symbolsOf_append (ev ev' : List Event) : symbolsOf (ev ++ ev') = symbolsOf ev ++ symbolsOf ev' :=
  List.flatMap_append

/-- The engine is ready exactly when no symbol waits (30_encoding.md R52). -/
theorem cmdReady_iff (p : PortState) : cmdReady p = true ↔ p.pending = [] := List.isEmpty_iff

/-- An accepted word only appends to the trace (10_state.md R21). -/
theorem out_prefix_acceptWord {w : CmdWord} {s t : State} (h : acceptWord w s = .next t) : s.out <+: t.out := by
  rcases acceptWord_cases w s with ⟨i, -, ha⟩ | ⟨r, -, ha⟩ <;> rw [ha, Host.Outcome.next.injEq] at h <;> subst h
  · exact out_prefix_execState i s
  · exact List.prefix_rfl

/-- The trace after a word is the trace before it and the word's events. -/
theorem out_append_newEvents {w : CmdWord} {s t : State} (h : acceptWord w s = .next t) :
    s.out ++ newEvents s t = t.out :=
  List.prefix_iff_eq_append.mp (out_prefix_acceptWord h)

/-! ### What each move does -/

theorem moveOffer_of_busy {p : PortState} (h : p.pending ≠ []) (w : CmdWord) : moveOffer w p = .next p :=
  if_neg fun hr => h ((cmdReady_iff p).mp hr)

/-- An offered word is executed by a ready engine and not taken by a busy one (30_encoding.md R52). -/
theorem moveOffer_cases {w : CmdWord} {p q : PortState} (h : moveOffer w p = .next q) :
    q = p ∨ (p.pending = [] ∧ ∃ t, acceptWord w p.core = .next t ∧
      q = { core := t, pending := symbolsOf (newEvents p.core t), sent := p.sent }) := by
  by_cases hp : p.pending = []
  · rw [moveOffer, if_pos ((cmdReady_iff p).mpr hp)] at h
    cases ha : acceptWord w p.core with
    | next t =>
      rw [ha] at h
      exact .inr ⟨hp, t, rfl, (Host.Outcome.next.inj h).symm⟩
    | fault r => nomatch r
    | refused r => rw [ha] at h; cases h
  · rw [moveOffer_of_busy hp] at h
    exact .inl (Host.Outcome.next.inj h).symm

theorem moveSink_of_pending {p : PortState} {x : Symbol} {xs : List Symbol} (h : p.pending = x :: xs) :
    moveSink p = .next { p with pending := xs, sent := p.sent ++ [x] } := by
  simp only [moveSink, h]

/-- A ready sink takes the first waiting symbol, if there is one (30_encoding.md R58). -/
theorem moveSink_cases {p q : PortState} (h : moveSink p = .next q) :
    q.core = p.core ∧ q.sent ++ q.pending = p.sent ++ p.pending ∧ p.sent <+: q.sent := by
  cases hp : p.pending with
  | nil =>
    simp only [moveSink, hp, Host.Outcome.next.injEq] at h
    subst h
    exact ⟨rfl, by rw [hp], List.prefix_rfl⟩
  | cons x xs =>
    rw [moveSink_of_pending hp, Host.Outcome.next.injEq] at h
    subst h
    exact ⟨rfl, by simp, List.prefix_append _ _⟩

theorem moveRst_cases {p q : PortState} (h : moveRst p = .next q) :
    q = { core := pinReset p.core, pending := [], sent := [] } := by
  unfold moveRst at h
  split at h <;> cases h
  rfl

/-! ### No symbol is lost -/

/-- The symbols sent and those waiting are together the symbols of the trace (30_encoding.md R58). -/
def AccountsForTrace (p : PortState) : Prop := p.sent ++ p.pending = symbolsOf p.core.out

theorem AccountsForTrace.move {p q : PortState} {m : PortMove} (hp : AccountsForTrace p)
    (h : portMove m p = .next q) : AccountsForTrace q ∧ (m ≠ .rst → p.sent <+: q.sent) := by
  cases m with
  | offer w =>
    rcases moveOffer_cases h with rfl | ⟨hready, t, ht, rfl⟩
    · exact ⟨hp, fun _ => List.prefix_rfl⟩
    · have hsent : p.sent = symbolsOf p.core.out := by rw [← hp, hready, List.append_nil]
      refine ⟨?_, fun _ => List.prefix_rfl⟩
      show p.sent ++ symbolsOf (newEvents p.core t) = symbolsOf t.out
      rw [hsent, ← symbolsOf_append, out_append_newEvents ht]
  | sinkReady =>
    obtain ⟨hcore, hall, hsent⟩ := moveSink_cases h
    exact ⟨by rw [AccountsForTrace, hall, hcore]; exact hp, fun _ => hsent⟩
  | rst =>
    obtain rfl := moveRst_cases h
    exact ⟨rfl, fun hne => absurd rfl hne⟩

/-- A sink that takes every waiting symbol makes the engine ready (70_reset_and_hazards.md R160). -/
theorem portRun_sinkReady (p : PortState) :
    portRun (List.replicate p.pending.length .sinkReady) p =
      .next { p with pending := [], sent := p.sent ++ p.pending } := by
  obtain ⟨core, pending, sent⟩ := p
  induction pending generalizing sent with
  | nil => simp [portRun]
  | cons x xs ih => simp [List.replicate_succ, portRun, portMove, moveSink, ih]

/-- Settles O57: every move keeps the account of the trace's symbols, and a busy engine only empties itself. -/
theorem eventPortLosesNoSymbol : Obligations.EventPortLosesNoSymbol :=
  ⟨fun _ _ _ hp h => AccountsForTrace.move hp h, fun _ w hp => moveOffer_of_busy hp w,
    fun p => ⟨_, portRun_sinkReady p, rfl, rfl, rfl⟩⟩

end Sys2Proof.Machine
end

section
/-! PROOFS. The CRC engine bit by bit, byte by byte and over byte sequences, and its commands (spec 40_crc_engine.md R70 to R78). -/

namespace Sys2Proof.Machine

/-! ### One message bit -/

/-- The set bits of `POLY` (40_crc_engine.md R69). -/
theorem getLsbD_crcPoly {i : Nat} (h : i < 16) : crcPoly.getLsbD i = decide (i = 0 ∨ i = 5 ∨ i = 12) := by
  interval_cases i <;> rfl

/-- What a feedback bit adds to the shifted register (40_crc_engine.md R70). -/
def feedbackMask (fb : Bool) : Half := if fb then crcPoly else 0#16

theorem feedbackMask_xor (f g : Bool) : feedbackMask (f ^^ g) = feedbackMask f ^^^ feedbackMask g := by
  cases f <;> cases g <;> simp [feedbackMask]

theorem getLsbD_feedbackMask (fb : Bool) (i : Nat) : (feedbackMask fb).getLsbD i = (fb && crcPoly.getLsbD i) := by
  cases fb <;> simp [feedbackMask]

theorem crcBit_eq (c : Half) (b : Bool) : crcBit c b = c <<< 1 ^^^ feedbackMask (c.getLsbD 15 ^^ b) := by
  unfold crcBit feedbackMask
  dsimp only
  split <;> simp

/-- Settles O28: the register is shifted by one place, and the feedback bit is added at the set bits of `POLY`. -/
theorem crcBitByItsBits : Obligations.CrcBitByItsBits := by
  intro c b i hi
  rw [crcBit_eq, BitVec.getLsbD_xor, getLsbD_feedbackMask, getLsbD_crcPoly hi, BitVec.getLsbD_shiftLeft]
  by_cases h0 : i = 0
  · simp [h0]
  by_cases h5 : i = 5
  · simp [h5]
  by_cases h12 : i = 12
  · simp [h12]
  · simp [h0, h5, h12, hi]

theorem crcBit_xor (a b : Half) (x y : Bool) : crcBit (a ^^^ b) (x ^^ y) = crcBit a x ^^^ crcBit b y := by
  have hfb : ((a ^^^ b).getLsbD 15 ^^ (x ^^ y)) = ((a.getLsbD 15 ^^ x) ^^ (b.getLsbD 15 ^^ y)) := by
    simp only [BitVec.getLsbD_xor, Bool.xor_assoc, Bool.xor_left_comm]
  simp only [crcBit_eq, hfb, feedbackMask_xor, BitVec.shiftLeft_xor_distrib]
  ac_rfl

/-- A message bit equal to the register's top bit gives no feedback. -/
theorem crcBit_of_top {c : Half} {b : Bool} (h : c.getLsbD 15 = b) : crcBit c b = c <<< 1 := by
  rw [crcBit_eq, h, Bool.xor_self]
  exact BitVec.xor_zero

/-- A message bit 0 empties no register: no feedback means that the top bit was 0, and the others are shifted. -/
theorem crcBit_false_eq_zero_iff (c : Half) : crcBit c false = 0#16 ↔ c = 0#16 := by
  refine ⟨fun h => ?_, fun h => by subst h; rfl⟩
  have htop : c.getLsbD 15 = false := by
    simpa [h] using (crcBitByItsBits c false 0 (by decide)).symm
  rw [crcBit_of_top htop] at h
  apply BitVec.eq_of_getLsbD_eq
  intro i hi
  rcases Nat.lt_or_eq_of_le (Nat.le_of_lt_succ hi) with hlt | rfl
  · have hbit : (c <<< 1).getLsbD (i + 1) = false := by rw [h, BitVec.getLsbD_zero]
    simpa [hi, show i + 1 < 16 by omega] using hbit
  · simpa using htop

/-! ### One message byte -/

/-- Settles O29: `CrcByte` is its eight rounds written out. -/
theorem crcByteFeedsBitsMsbFirst : Obligations.CrcByteFeedsBitsMsbFirst :=
  ⟨fun _ _ => rfl, by decide⟩

theorem crcStep_xor (a b : Half) (d e : Byte) : crcStep (a ^^^ b) (d ^^^ e) = crcStep a d ^^^ crcStep b e := by
  simp only [crcStep, BitVec.getLsbD_xor, crcBit_xor]

/-- A message byte equal to the register's high byte is shifted out without feedback. -/
theorem crcStep_of_highByte {c : Half} {d : Byte} (h : c.extractLsb' 8 8 = d) : crcStep c d = c <<< 8 := by
  have hround (j k : Nat) (hjk : j + k = 7) : crcBit (c <<< k) (d.getLsbD j) = c <<< (k + 1) := by
    have htop : (c <<< k).getLsbD 15 = d.getLsbD j := by
      rw [← h, BitVec.getLsbD_shiftLeft, BitVec.getLsbD_extractLsb']
      simp [show j < 8 by omega, show ¬ 15 < k by omega, show 8 + j = 15 - k by omega]
    rw [crcBit_of_top htop, BitVec.shiftLeft_add]
  have hfirst : crcBit c (d.getLsbD 7) = c <<< 1 := by
    simpa using hround 7 0 rfl
  simp only [crcStep, hfirst, hround 6 1 rfl, hround 5 2 rfl, hround 4 3 rfl, hround 3 4 rfl, hround 2 5 rfl,
    hround 1 6 rfl, hround 0 7 rfl]

/-- The message byte is the register's high byte, which is shifted out, plus the rest, which the table answers
(40_crc_engine.md R72 b). -/
theorem crcStepTable_eq (c : Half) (d : Byte) : crcStepTable c d = crcStep c d := by
  have hd : c.extractLsb' 8 8 ^^^ (c.extractLsb' 8 8 ^^^ d) = d := by
    rw [← BitVec.xor_assoc, BitVec.xor_self, BitVec.zero_xor]
  calc crcStepTable c d
      = crcStep c (c.extractLsb' 8 8) ^^^ crcStep 0#16 (c.extractLsb' 8 8 ^^^ d) := by
        rw [crcStep_of_highByte rfl]; rfl
    _ = crcStep c d := by rw [← crcStep_xor, BitVec.xor_zero, hd]

theorem xorFirstRound_eq (t : Half) : xorFirstRound t = crcBit t false := by
  simp [xorFirstRound, crcBit]

theorem highByte_shiftLeft (d : Byte) : (d.setWidth 16 <<< 8).extractLsb' 8 8 = d := by
  apply BitVec.eq_of_getLsbD_eq
  intro i hi
  simp [hi, show 8 + i < 16 by omega]

/-- A message byte may as well be added to the register's high byte and followed by eight message bits 0. -/
theorem crcStep_eq_crcStep_zero (c : Half) (d : Byte) : crcStep c d = crcStep (c ^^^ d.setWidth 16 <<< 8) 0#8 := by
  have hout : crcStep (d.setWidth 16 <<< 8) d = 0#16 := by
    rw [crcStep_of_highByte (highByte_shiftLeft d), ← BitVec.shiftLeft_add]
    exact BitVec.shiftLeft_eq_zero (by decide)
  calc crcStep c d
      = crcStep (c ^^^ d.setWidth 16 <<< 8 ^^^ d.setWidth 16 <<< 8) (0#8 ^^^ d) := by
        rw [BitVec.xor_assoc, BitVec.xor_self, BitVec.xor_zero, BitVec.zero_xor]
    _ = crcStep (c ^^^ d.setWidth 16 <<< 8) 0#8 := by rw [crcStep_xor, hout, BitVec.xor_zero]

/-- The XOR-first form feeds eight message bits 0 (40_crc_engine.md R72 a). -/
theorem crcStepXorFirst_eq (c : Half) (d : Byte) : crcStepXorFirst c d = crcStep c d := by
  rw [crcStep_eq_crcStep_zero]
  simp [crcStepXorFirst, crcStep, xorFirstRound_eq, List.range_succ]

/-- Settles O30: `CrcByte` is linear, and a byte equal to the register's high byte leaves the register shifted. -/
theorem crcByteEquivalentForms : Obligations.CrcByteEquivalentForms :=
  ⟨crcStepXorFirst_eq, crcStepTable_eq, by decide, by decide, crcStep_xor⟩

theorem crcStep_zero_eq_zero_iff (c : Half) : crcStep c 0#8 = 0#16 ↔ c = 0#16 := by
  simp [crcStep, crcBit_false_eq_zero_iff]

/-- Zero is not a stuck value (40_crc_engine.md R78). -/
theorem crcStep_zero_ne_zero (d : Byte) (hd : d ≠ 0#8) : crcStep 0#16 d ≠ 0#16 := by
  rw [crcStep_eq_crcStep_zero, BitVec.zero_xor, Ne, crcStep_zero_eq_zero_iff]
  intro h
  apply hd
  rw [← highByte_shiftLeft d, h]
  rfl

/-! ### Byte sequences -/

theorem crcSpan_append (c : Half) (s t : List Byte) : crcSpan c (s ++ t) = crcSpan (crcSpan c s) t :=
  List.foldl_append

theorem crc16_eq_crcSpan (s : List Byte) : crc16 s = crcSpan crcInitValue s := BitVec.xor_zero

/-- The check value of the nine ASCII digits (40_crc_engine.md R74). -/
theorem crc16_checkValue :
    crc16 [0x31#8, 0x32#8, 0x33#8, 0x34#8, 0x35#8, 0x36#8, 0x37#8, 0x38#8, 0x39#8] = 0x29B1#16 := by
  simp [crc16, crcSpan, crcStep, crcBit, crcInitValue, crcXorOut, crcPoly]

/-- Settles O31: `CrcSpan` is a left fold, and the final XOR value is zero. -/
theorem checksumIsChunkIndependent : Obligations.ChecksumIsChunkIndependent :=
  ⟨fun _ => rfl, fun _ _ _ => rfl, crcSpan_append, crc16_eq_crcSpan, rfl, crc16_checkValue⟩

/-! ### The commands of the CRC engine -/

/-- A command's word is executed as the command (43_control.md R127). -/
theorem acceptWord_encode (i : Instr) (s : State) : acceptWord (encode i) s = exec i s := by
  rw [acceptWord, decode_encode]

/-- Settles O11: the word `0x400` is the command's, and so is its next state. -/
theorem crcInitLoadsInitialValue : Obligations.CrcInitLoadsInitialValue :=
  ⟨fun s => ⟨exec_eq_next .crcInit s, acceptWord_encode .crcInit s⟩, rfl⟩

/-- Settles O12: the next state and the word are the command's, and the bytes of a checksum job are one `CrcSpan`. -/
theorem crcByteFeedsTheRegister : Obligations.CrcByteFeedsTheRegister := by
  refine ⟨fun s d => ⟨exec_eq_next (.crcByte d) s, acceptWord_encode (.crcByte d) s⟩, runInstrs_crcCompute,
    crcStep_zero_ne_zero, fun s hs => ?_⟩
  rw [show 0x531#12 = encode (.crcByte 0x31#8) from rfl, acceptWord_encode, exec_eq_next, execState, hs,
    crcByteFeedsBitsMsbFirst.2]

end Sys2Proof.Machine
end

section
/-! PROOFS. What the CRC commands and the stream commands leave unchanged (spec 40_crc_engine.md R79, 10_state.md R17, R20). -/

namespace Sys2Proof.Machine

/-- Settles O17: of the whole state these commands write `CRC` only, and NOP not even that. -/
theorem crcCommandsFrame : Obligations.CrcCommandsFrame := by
  intro i s t hi h
  rw [exec_eq_next, Host.Outcome.next.injEq] at h
  subst h
  rcases hi with rfl | rfl | ⟨d, rfl⟩
  · exact ⟨fun _ => rfl, rfl, rfl, rfl, rfl, fun _ => rfl⟩
  · exact ⟨fun _ => rfl, rfl, rfl, rfl, rfl, nofun⟩
  · exact ⟨fun _ => rfl, rfl, rfl, rfl, rfl, nofun⟩

/-! ### The bytes that FEED and FINISH leave -/

/-- The bytes a turn of the loop leaves. -/
def Turn.held : Turn → List Byte
  | .stop _ b => b
  | .again _ b => b

/-- A turn drops bytes from the front only (20_memory.md R34). -/
theorem drainTurn_held_suffix (p : Params) (b : List Byte) : (drainTurn p b).held <:+ b := by
  rcases drainTurn_cases p b with ⟨-, ht⟩ | ⟨idx, -, ⟨-, ht⟩ | ⟨length, -, ⟨-, ht⟩ | ⟨-, -, ht⟩ | ⟨-, -, ht⟩⟩⟩ <;>
    rw [ht]
  · exact List.suffix_rfl
  · exact List.drop_suffix _ _
  · exact (List.drop_suffix _ _).trans (List.drop_suffix _ _)
  · exact List.drop_suffix _ _
  · exact (List.drop_suffix _ _).trans (List.drop_suffix _ _)

theorem drainFuel_suffix (p : Params) (n : Nat) (b : List Byte) : (drainFuel p n b).2 <:+ b := by
  induction n generalizing b with
  | zero => exact List.suffix_rfl
  | succ n ih =>
    have hturn := drainTurn_held_suffix p b
    rw [drainFuel_succ]
    cases ht : drainTurn p b <;> rw [ht] at hturn
    case stop ev b' => exact hturn
    case again ev b' => exact (ih b').trans hturn

/-- The last bytes of a sequence read as they did, at addresses lower by the bytes dropped (20_memory.md R32). -/
theorem readByte_suffix {t b : List Byte} (h : t <:+ b) (a : Nat) :
    readByte t a = readByte b (a + (b.length - t.length)) := by
  obtain ⟨dropped, rfl⟩ := h
  simp [readByte, List.getElem?_append_right]

/-- After an accepted FEED the buffer holds the last of the old bytes and the new one (42_reassembler.md R109). -/
theorem fedState_buf_suffix (d : Byte) (s : State) : (fedState d s).buf <:+ s.buf ++ [d] :=
  drainFuel_suffix s.params _ _

/-! ### The fields that FEED and FINISH leave -/

@[simp] theorem fedState_crc (d : Byte) (s : State) : (fedState d s).crc = s.crc := rfl
@[simp] theorem finishedState_crc (s : State) : (finishedState s).crc = s.crc := rfl
@[simp] theorem fedState_inbox (d : Byte) (s : State) : (fedState d s).inbox = s.inbox := rfl
@[simp] theorem finishedState_inbox (s : State) : (finishedState s).inbox = s.inbox := rfl

/-- No command reads or writes what the host still has to send. -/
@[simp] theorem execState_inbox (i : Instr) (s : State) : (execState i s).inbox = s.inbox := by
  cases i with
  | nop => rfl
  | feed d => rcases execState_feed_cases d s with ⟨-, h⟩ | ⟨-, -, h⟩ | ⟨-, -, h⟩ <;> simp [h]
  | finish => rcases execState_finish_cases s with ⟨-, h⟩ | ⟨-, h⟩ <;> simp [h]
  | reset => rfl
  | crcInit => rfl
  | crcByte d => rfl

/-- FEED never writes `CRC` (40_crc_engine.md R79). -/
@[simp] theorem execState_feed_crc (d : Byte) (s : State) : (execState (.feed d) s).crc = s.crc := by
  rcases execState_feed_cases d s with ⟨-, h⟩ | ⟨-, -, h⟩ | ⟨-, -, h⟩ <;> simp [h]

/-- FINISH never writes `CRC` (40_crc_engine.md R79). -/
@[simp] theorem execState_finish_crc (s : State) : (execState .finish s).crc = s.crc := by
  rcases execState_finish_cases s with ⟨-, h⟩ | ⟨-, h⟩ <;> simp [h]

theorem getLsbD_setFlag_of_ne {f : Flag} {k : Nat} (st : Status) (h : k ≠ flagBit f) :
    (setFlag f st).getLsbD k = st.getLsbD k := by
  rw [setFlag, BitVec.getLsbD_or, ← BitVec.twoPow_eq, BitVec.getLsbD_twoPow]
  simp [h.symm]

/-- FEED writes no flag but `OVF` and `LATE` (10_state.md R20). -/
theorem getLsbD_status_feed (d : Byte) (s : State) {k : Nat} (hovf : k ≠ 1) (hlate : k ≠ 3) :
    (execState (.feed d) s).status.getLsbD k = s.status.getLsbD k := by
  rcases execState_feed_cases d s with ⟨-, h⟩ | ⟨-, -, h⟩ | ⟨-, -, h⟩ <;> rw [h]
  · exact getLsbD_setFlag_of_ne (f := .late) s.status hlate
  · exact getLsbD_setFlag_of_ne (f := .ovf) s.status hovf
  · rfl

/-- FINISH writes no flag but `DONE` and `LATE` (10_state.md R20). -/
theorem getLsbD_status_finish (s : State) {k : Nat} (hdone : k ≠ 0) (hlate : k ≠ 3) :
    (execState .finish s).status.getLsbD k = s.status.getLsbD k := by
  rcases execState_finish_cases s with ⟨-, h⟩ | ⟨-, h⟩ <;> rw [h]
  · exact getLsbD_setFlag_of_ne (f := .late) s.status hlate
  · exact getLsbD_setFlag_of_ne (f := .done) s.status hdone

/-- A stopped reassembler and a full buffer keep every byte (42_reassembler.md R108, R109). -/
theorem execState_feed_buf_of_refused {d : Byte} {s : State}
    (h : stopped s.status = true ∨ s.params.cap = .bounded s.buf.length) : (execState (.feed d) s).buf = s.buf := by
  rcases execState_feed_cases d s with ⟨-, he⟩ | ⟨-, -, he⟩ | ⟨hrun, hroom, -⟩
  · rw [he, markLate_buf]
  · rw [he, raiseOverflow_buf]
  · rcases h with hs | hfull
    · rw [hrun] at hs; cases hs
    · exact absurd hfull hroom

theorem execState_feed_of_accepted {d : Byte} {s : State} (hrun : stopped s.status = false)
    (hroom : s.params.cap ≠ .bounded s.buf.length) : execState (.feed d) s = fedState d s := by
  rcases execState_feed_cases d s with ⟨hs, -⟩ | ⟨-, hfull, -⟩ | ⟨-, -, he⟩
  · rw [hrun] at hs; cases hs
  · exact absurd hfull hroom
  · exact he

theorem execState_finish_of_stopped {s : State} (h : stopped s.status = true) :
    execState .finish s = markLate s := if_pos h

theorem execState_finish_of_running {s : State} (h : stopped s.status = false) :
    execState .finish s = finishedState s := if_neg (by simp [h])

/-- Settles O18: FEED does one of three things and FINISH one of two, and `Drain` only drops bytes from the front. -/
theorem streamCommandsFrame : Obligations.StreamCommandsFrame := by
  refine ⟨fun s t d h => ?_, fun s t h => ?_⟩ <;> rw [exec_eq_next, Host.Outcome.next.injEq] at h <;> subst h
  · refine ⟨execState_feed_crc d s, execState_params _ s, execState_inbox _ s, out_prefix_execState _ s,
      fun _ => getLsbD_status_feed d s,
      fun hrefused a => ?refused, fun hrun hroom => ?accepted⟩
    case refused => rw [execState_feed_buf_of_refused hrefused]
    case accepted =>
      rw [execState_feed_of_accepted hrun hroom]
      have hsuffix := fedState_buf_suffix d s
      have hlen : (s.buf ++ [d]).length = s.buf.length + 1 := List.length_append
      exact ⟨hlen ▸ hsuffix.length_le, hlen ▸ readByte_suffix hsuffix⟩
  · refine ⟨execState_finish_crc s, execState_params _ s, execState_inbox _ s, out_prefix_execState _ s,
      fun _ => getLsbD_status_finish s,
      fun hstop a => ?stopped, fun hrun a => ?ended⟩
    case stopped => rw [execState_finish_of_stopped hstop, markLate_buf]
    case ended => rw [execState_finish_of_running hrun, finishedState_buf]; rfl

end Sys2Proof.Machine
end

section
/-! PROOFS. `CrcSpan` as the remainder of a division of polynomials over GF(2) (spec 40_crc_engine.md R75). -/

namespace Sys2Proof.Machine

open Polynomial

/-! ### Bits as coefficients -/

theorem bitsPoly_eq_sum {w : Nat} (v : BitVec w) :
    bitsPoly v = ∑ i ∈ Finset.range w, ((v.getLsbD i).toNat : (ZMod 2)[X]) * X ^ i := by
  refine Finset.sum_congr rfl fun i _ => ?_
  cases v.getLsbD i <;> simp

/-- Addition over GF(2) is XOR. -/
theorem cast_xor_toNat (a b : Bool) :
    (((a ^^ b).toNat : Nat) : (ZMod 2)[X]) = (a.toNat : (ZMod 2)[X]) + (b.toNat : (ZMod 2)[X]) := by
  cases a <;> cases b <;> simp [CharTwo.add_self_eq_zero]

theorem bitsPoly_xor {w : Nat} (u v : BitVec w) : bitsPoly (u ^^^ v) = bitsPoly u + bitsPoly v := by
  simp only [bitsPoly_eq_sum, ← Finset.sum_add_distrib, BitVec.getLsbD_xor, cast_xor_toNat, add_mul]

/-- A shift multiplies by x and drops the coefficient of the highest power. -/
theorem bitsPoly_shiftLeft_one {w : Nat} (v : BitVec (w + 1)) :
    bitsPoly (v <<< 1) + ((v.getLsbD w).toNat : (ZMod 2)[X]) * X ^ (w + 1) = bitsPoly v * X := by
  have hbit (i : Nat) (hi : i < w) :
      (((v <<< 1).getLsbD (i + 1)).toNat : (ZMod 2)[X]) * X ^ (i + 1) =
        ((v.getLsbD i).toNat : (ZMod 2)[X]) * X ^ i * X := by
    have hshift : (v <<< 1).getLsbD (i + 1) = v.getLsbD i := by
      rw [BitVec.getLsbD_shiftLeft, decide_eq_true (show i + 1 < w + 1 by omega)]
      simp
    rw [hshift, pow_succ, mul_assoc]
  rw [bitsPoly_eq_sum, bitsPoly_eq_sum, Finset.sum_range_succ', Finset.sum_range_succ _ w, add_mul, Finset.sum_mul,
    Finset.sum_congr rfl fun i hi => hbit i (Finset.mem_range.mp hi)]
  simp [pow_succ, mul_assoc]

theorem degree_bitsPoly_lt {w : Nat} (v : BitVec w) : (bitsPoly v).degree < w := by
  rw [← mem_degreeLT]
  refine Submodule.sum_mem _ fun i hi => ?_
  rw [Finset.mem_range] at hi
  rw [mem_degreeLT]
  split
  · rw [degree_X_pow]
    exact_mod_cast hi
  · simp

theorem crcGenerator_eq : crcGenerator = X ^ 16 + bitsPoly crcPoly := by
  have hpoly : bitsPoly crcPoly = 1 + X ^ 5 + X ^ 12 := by simp [bitsPoly, crcPoly, Finset.sum_range_succ]
  rw [crcGenerator, hpoly]
  ring

theorem monic_crcGenerator : crcGenerator.Monic := by
  rw [crcGenerator_eq]
  exact monic_X_pow_add (degree_bitsPoly_lt crcPoly)

theorem degree_crcGenerator : crcGenerator.degree = 16 := by
  rw [crcGenerator_eq, degree_add_eq_left_of_degree_lt] <;> rw [degree_X_pow]
  · rfl
  · exact degree_bitsPoly_lt crcPoly

theorem bitsPoly_crcPoly : bitsPoly crcPoly = crcGenerator + X ^ 16 := by
  rw [crcGenerator_eq, add_right_comm, CharTwo.add_self_eq_zero, zero_add]

/-! ### The CRC functions modulo G -/

theorem bitsPoly_feedbackMask (fb : Bool) :
    bitsPoly (feedbackMask fb) = (fb.toNat : (ZMod 2)[X]) * (crcGenerator + X ^ 16) := by
  rw [← bitsPoly_crcPoly]
  cases fb
  · simp [feedbackMask, bitsPoly]
  · simp [feedbackMask]

/-- One message bit: multiply by x, add the bit at x^16, and add G where that leaves x^16 (40_crc_engine.md R70). -/
theorem bitsPoly_crcBit (c : Half) (b : Bool) :
    bitsPoly (crcBit c b) = bitsPoly c * X + (b.toNat : (ZMod 2)[X]) * X ^ 16 +
      ((c.getLsbD 15 ^^ b).toNat : (ZMod 2)[X]) * crcGenerator := by
  rw [crcBit_eq, bitsPoly_xor, bitsPoly_feedbackMask, ← bitsPoly_shiftLeft_one, cast_xor_toNat]
  ring

section ModuloG

/- A ring in which G is zero: an equality there is a congruence modulo G. -/
variable {R : Type} [CommRing R] {φ : (ZMod 2)[X] →+* R} (hG : φ crcGenerator = 0)
include hG

theorem map_crcBit (c : Half) (b : Bool) :
    φ (bitsPoly (crcBit c b)) = φ (bitsPoly c) * φ X + b.toNat * φ X ^ 16 := by
  simp [bitsPoly_crcBit, hG]

theorem map_crcStep (c : Half) (d : Byte) :
    φ (bitsPoly (crcStep c d)) = φ (bitsPoly c) * φ X ^ 8 + φ (bitsPoly d) * φ X ^ 16 := by
  simp only [crcStep, map_crcBit hG, bitsPoly_eq_sum d, Finset.sum_range_succ, Finset.sum_range_zero, map_add, map_mul,
    map_pow, map_natCast, map_zero]
  ring

theorem map_crcSpan (c : Half) (s : List Byte) :
    φ (bitsPoly (crcSpan c s)) = φ (bitsPoly c * X ^ (8 * s.length) + bytesPoly s * X ^ 16) := by
  induction s generalizing c with
  | nil => simp [crcSpan, bytesPoly]
  | cons d s ih =>
    calc φ (bitsPoly (crcSpan (crcStep c d) s))
        = (φ (bitsPoly c) * φ X ^ 8 + φ (bitsPoly d) * φ X ^ 16) * φ X ^ (8 * s.length) +
            φ (bytesPoly s) * φ X ^ 16 := by
          simp only [ih, map_add, map_mul, map_pow, map_crcStep hG]
      _ = φ (bitsPoly c * X ^ (8 * (d :: s).length) + bytesPoly (d :: s) * X ^ 16) := by
          simp only [bytesPoly, List.length_cons, map_add, map_mul, map_pow]
          ring

end ModuloG

theorem bitsPoly_modByMonic (v : Half) : bitsPoly v %ₘ crcGenerator = bitsPoly v := by
  rw [modByMonic_eq_self_iff monic_crcGenerator, degree_crcGenerator]
  exact degree_bitsPoly_lt v

/-- Settles O32: the two sides are congruent modulo G, and the left one is its own remainder. -/
theorem crcIsPolynomialRemainder : Obligations.CrcIsPolynomialRemainder := by
  intro c s
  have hcongr := map_crcSpan (φ := AdjoinRoot.mk crcGenerator) AdjoinRoot.mk_self c s
  have hrem := modByMonic_eq_of_dvd_sub monic_crcGenerator (AdjoinRoot.mk_eq_mk.mp hcongr)
  rwa [bitsPoly_modByMonic] at hrem

end Sys2Proof.Machine
end

section
/-! PROOFS. The frame codec: the changed byte, the residue, and the outcomes of `Decode` (spec 41_frame_codec.md R82 to R94). -/

namespace Sys2Proof.Machine

/-! ### The frame of a payload -/

/-- Settles O33: the length of a frame is linear in the number of items, and `Encode` answers the payload's frame. -/
theorem frameLengthOfAPayload : Obligations.FrameLengthOfAPayload := by
  refine ⟨fun length h => ?_, fun p f hf => ?_⟩
  · unfold frameLen
    omega
  · obtain ⟨-, rfl⟩ := (encodeFrame_eq_some_iff p f).mp hf
    exact frameOf_length p

/-- Settles O35: `Encode` answers the payload's frame, and `Decode` inverts it. -/
theorem frameCodecRoundTrip : Obligations.FrameCodecRoundTrip := fun q p hp =>
  have hmax : p.length ≤ 65535 := hp.trans (Nat.le_of_lt_succ q.maxItems.isLt)
  ⟨frameOf p, (encodeFrame_eq_some_iff p _).mpr ⟨hmax, rfl⟩, decodeFrame_frameOf hp⟩

/-! ### The checksum register loses nothing -/

/-- A message byte keeps different registers different: the difference is fed a byte 0. -/
theorem crcStep_register_injective {a b : Half} {d : Byte} (h : crcStep a d = crcStep b d) : a = b := by
  have hdiff : crcStep (a ^^^ b) (d ^^^ d) = 0#16 := by rw [crcStep_xor, h, BitVec.xor_self]
  rw [BitVec.xor_self, crcStep_zero_eq_zero_iff] at hdiff
  exact BitVec.xor_eq_zero_iff.mp hdiff

/-- Different message bytes leave different registers: the difference is fed to a register 0. -/
theorem crcStep_byte_injective {c : Half} {d e : Byte} (h : crcStep c d = crcStep c e) : d = e := by
  have hdiff : crcStep (c ^^^ c) (d ^^^ e) = 0#16 := by rw [crcStep_xor, h, BitVec.xor_self]
  rw [BitVec.xor_self] at hdiff
  by_contra hne
  exact crcStep_zero_ne_zero _ (mt BitVec.xor_eq_zero_iff.mp hne) hdiff

theorem crcSpan_register_injective {a b : Half} {s : List Byte} (h : crcSpan a s = crcSpan b s) : a = b := by
  induction s generalizing a b with
  | nil => exact h
  | cons d s ih => exact crcStep_register_injective (ih h)

/-- One changed byte changes the register behind it, and equal bytes keep the difference (41_frame_codec.md R93). -/
theorem crcSpan_set_ne {s : List Byte} {k : Nat} {x : Byte} (hk : k < s.length) (hx : s[k]? ≠ some x) (c : Half) :
    crcSpan c (s.set k x) ≠ crcSpan c s := by
  induction s generalizing k c with
  | nil => cases hk
  | cons d s ih =>
    cases k with
    | zero =>
      intro h
      have hxd : x = d := crcStep_byte_injective (crcSpan_register_injective (s := s) h)
      exact hx (congrArg some hxd.symm)
    | succ k => exact ih (Nat.lt_of_succ_lt_succ hk) hx (crcStep c d)

theorem crc16_set_ne {s : List Byte} {k : Nat} {x : Byte} (hk : k < s.length) (hx : s[k]? ≠ some x) :
    crc16 (s.set k x) ≠ crc16 s := by
  rw [crc16_eq_crcSpan, crc16_eq_crcSpan]
  exact crcSpan_set_ne hk hx _

/-! ### The residue -/

/-- A register fed its own two bytes is shifted out (41_frame_codec.md R94). -/
theorem crcSpan_be16_self (v : Half) : crcSpan v (be16 v) = 0#16 := by
  have hlow : (v <<< 8).extractLsb' 8 8 = v.extractLsb' 0 8 := by
    apply BitVec.eq_of_getLsbD_eq
    intro i hi
    simp [hi, show 8 + i < 16 by omega, -BitVec.getLsbD_eq_getElem]
  calc crcSpan v (be16 v)
      = crcStep (crcStep v (v.extractLsb' 8 8)) (v.extractLsb' 0 8) := rfl
    _ = v <<< 8 <<< 8 := by rw [crcStep_of_highByte rfl, crcStep_of_highByte hlow]
    _ = 0#16 := by rw [← BitVec.shiftLeft_add]; exact BitVec.shiftLeft_eq_zero (by decide)

theorem crcSpan_be16_eq_zero_iff (c v : Half) : crcSpan c (be16 v) = 0#16 ↔ c = v := by
  rw [← crcSpan_be16_self v]
  exact ⟨crcSpan_register_injective, fun h => by rw [h]⟩

/-- A checksum behind a body leaves residue zero exactly when it is the body's. -/
theorem crc16_append_be16_eq_zero_iff (b : List Byte) (v : Half) : crc16 (b ++ be16 v) = 0#16 ↔ crc16 b = v := by
  rw [crc16_eq_crcSpan, crcSpan_append, crcSpan_be16_eq_zero_iff, crc16_eq_crcSpan]

/-- The last two bytes of a sequence are a value sent big-endian. -/
theorem exists_eq_append_be16 {b : List Byte} (h : 2 ≤ b.length) : ∃ body v, b = body ++ be16 v := by
  obtain ⟨hi, lo, htail⟩ := List.length_eq_two.mp (show (b.drop (b.length - 2)).length = 2 by simp; omega)
  exact ⟨b.take (b.length - 2), BE16 hi lo, by rw [be16_BE16, ← htail, List.take_append_drop]⟩

/-- What `Validate` takes is a body and the received checksum behind it (41_frame_codec.md R87). -/
theorem eq_append_be16_of_validate {b : List Byte} {v : Validation} (h : validate b = some v) :
    ∃ body, b = body ++ be16 v.received ∧ v.expected = crc16 body := by
  have h6 : 6 ≤ b.length := by
    by_contra hc
    rw [validate, if_pos (Nat.not_le.mp hc)] at h
    cases h
  obtain ⟨body, received, rfl⟩ := exists_eq_append_be16 (b := b) (by omega)
  rw [validate_append_be16 (by simpa using h6), Option.some.injEq] at h
  exact ⟨body, by rw [← h], by rw [← h]⟩

/-- Settles O37: a checksum behind a body leaves residue zero exactly when it is the body's. -/
theorem residueTestIsTheComparison : Obligations.ResidueTestIsTheComparison := by
  refine ⟨fun p f hf => ?_, fun b v hv => ?_⟩
  · obtain ⟨-, rfl⟩ := (encodeFrame_eq_some_iff p f).mp hf
    exact (crc16_append_be16_eq_zero_iff _ _).mpr rfl
  · obtain ⟨body, rfl, hexp⟩ := eq_append_be16_of_validate hv
    rw [residueTest, checksumMatches, hexp, Bool.eq_iff_iff, beq_iff_eq, beq_iff_eq]
    exact crc16_append_be16_eq_zero_iff _ _

/-! ### One changed payload byte -/

/-- A changed payload byte leaves the marker, the length field and the number of bytes, so `Decode` compares the sent
checksum with the one of the changed body (41_frame_codec.md R93). -/
theorem decodeFrame_set_payload {q : Params} {p : List Half} {k : Nat} {x : Byte} (hp : p.length ≤ q.maxItems.val)
    (h4 : 4 ≤ k) (hk : k < (frameBody p).length) (hcrc : crc16 ((frameBody p).set k x) ≠ crc16 (frameBody p)) :
    decodeFrame q ((frameOf p).set k x) =
      .checksumMismatch (crc16 ((frameBody p).set k x)) (crc16 (frameBody p)) ((frameOf p).set k x) := by
  have hcount := toNat_itemCount hp
  obtain ⟨j, rfl⟩ := Nat.exists_eq_add_of_le' h4
  obtain ⟨v, hv, hd⟩ := decodeFrame_candidate (p := q) (b := (frameOf p).set (j + 4) x) (startsWithMarker_frameOf p)
    (readHalf_frameOf p) (hcount.symm ▸ hp) (by rw [List.length_set, frameOf_length, hcount])
  rw [frameOf, List.set_append_left _ _ hk, validate_append_be16 (by simp), Option.some.injEq] at hv
  subst hv
  rw [hd, checksumMatches, if_neg (by simpa using hcrc)]

/-- Settles O36: the changed body has another checksum than the one sent. -/
theorem oneChangedPayloadByteIsDetected : Obligations.OneChangedPayloadByteIsDetected := by
  intro q p f k x hp hf h4 hk hx
  obtain ⟨-, rfl⟩ := (encodeFrame_eq_some_iff p f).mp hf
  have hbody : k < (frameBody p).length := by
    simp only [frameOf_length, frameLen, frameBody_length] at hk ⊢
    omega
  rw [frameOf, List.getElem?_append_left hbody] at hx
  exact ⟨_, crc16_set_ne hbody hx, decodeFrame_set_payload hp h4 hbody (crc16_set_ne hbody hx)⟩

/-! ### The outcomes of `Decode` -/

/-- The first structural test looks at the first two bytes (41_frame_codec.md R85). -/
theorem startsWithMarker_iff_getElem? (b : List Byte) :
    startsWithMarker b = true ↔ b[0]? = some 0xBE#8 ∧ b[1]? = some 0xEF#8 := by
  match b with
  | [] => simp [startsWithMarker]
  | [_] => simp [startsWithMarker]
  | b0 :: b1 :: t => simp [startsWithMarker, marker0, marker1]

/-- `b` is structurally well-formed, with these values in its length and checksum fields (41_frame_codec.md R85). -/
def IsCandidate (p : Params) (b : List Byte) (length received : Half) : Prop :=
  startsWithMarker b = true ∧ readHalf b 2 = some length ∧ b.length = frameLen length.toNat ∧
    length.toNat ≤ p.maxItems.val ∧ readHalf b (b.length - 2) = some received

/-- A sequence of the length its length field asks for has a checksum field (41_frame_codec.md R85). -/
theorem exists_isCandidate {p : Params} {b : List Byte} {length : Half} (hs : startsWithMarker b = true)
    (hl : readHalf b 2 = some length) (hlen : b.length = frameLen length.toNat) (hmax : length.toNat ≤ p.maxItems.val) :
    ∃ received, IsCandidate p b length received := by
  obtain ⟨v, hv⟩ := validate_isSome (b := b) (by rw [hlen, frameLen]; omega)
  exact ⟨v.received, hs, hl, hlen, hmax, readHalf_of_validate hv⟩

/-- A sequence is a candidate of step 6, or malformed for some reason (41_frame_codec.md R85). -/
theorem isCandidate_or_malformed (p : Params) (b : List Byte) :
    (∃ length received, IsCandidate p b length received) ∨ ∃ reason, decodeFrame p b = .malformedFrame reason b := by
  rcases decodeFrame_cases p b with hd | ⟨length, hs, hl, hlen, hmax⟩
  · exact .inr hd
  · exact .inl ⟨length, exists_isCandidate hs hl hlen hmax⟩

/-- Step 6 compares the recomputed checksum with the received one (41_frame_codec.md R85). -/
theorem IsCandidate.decodeFrame_eq {p : Params} {b : List Byte} {length received : Half}
    (h : IsCandidate p b length received) :
    decodeFrame p b =
      if crc16 (b.take (b.length - 2)) = received then
        .ok { length := length, payload := itemsOf ((b.drop 4).take (2 * length.toNat)), checksum := received }
      else .checksumMismatch (crc16 (b.take (b.length - 2))) received b := by
  obtain ⟨hs, hl, hlen, hmax, hr⟩ := h
  have hv : validate b = some { expected := crc16 (b.take (b.length - 2)), received := received } := by
    rw [validate, if_neg (by rw [hlen, frameLen]; omega), hr]
    rfl
  obtain ⟨v, hv', hd⟩ := decodeFrame_candidate hs hl hmax hlen
  obtain rfl := Option.some.inj (hv.symm.trans hv')
  simpa [checksumMatches] using hd

theorem IsCandidate.not_malformed {p : Params} {b raw : List Byte} {length received : Half} {reason : Reason}
    (h : IsCandidate p b length received) : decodeFrame p b ≠ .malformedFrame reason raw := by
  rw [h.decodeFrame_eq]
  split <;> exact DecodeResult.noConfusion

/-- The tests of `Decode` in their order (41_frame_codec.md R85). -/
theorem decodeFrame_branches (p : Params) (b : List Byte) :
    (startsWithMarker b = false ∧ decodeFrame p b = .malformedFrame .markerMissing b) ∨
    (startsWithMarker b = true ∧ readHalf b 2 = none ∧ decodeFrame p b = .malformedFrame .lengthInconsistent b) ∨
    ∃ length, startsWithMarker b = true ∧ readHalf b 2 = some length ∧
      ((b.length ≠ frameLen length.toNat ∧ decodeFrame p b = .malformedFrame .lengthInconsistent b) ∨
       (b.length = frameLen length.toNat ∧ p.maxItems.val < length.toNat ∧
         decodeFrame p b = .malformedFrame .lengthBounds b) ∨
       ∃ received, IsCandidate p b length received) := by
  cases hs : startsWithMarker b with
  | false => exact .inl ⟨rfl, by simp [decodeFrame, hs]⟩
  | true =>
    cases hl : readHalf b 2 with
    | none => exact .inr (.inl ⟨rfl, rfl, by simp [decodeFrame, hs, hl]⟩)
    | some length =>
      refine .inr (.inr ⟨length, rfl, rfl, ?_⟩)
      by_cases hlen : b.length = frameLen length.toNat
      · by_cases hmax : p.maxItems.val < length.toNat
        · exact .inr (.inl ⟨hlen, hmax, by simp [decodeFrame, hs, hl, hlen, hmax]⟩)
        · exact .inr (.inr (exists_isCandidate hs hl hlen (Nat.not_lt.mp hmax)))
      · exact .inl ⟨hlen, by simp [decodeFrame, hs, hl, hlen]⟩

theorem decodeFrame_eq_ok_iff (p : Params) (b : List Byte) (f : Frame) :
    decodeFrame p b = .ok f ↔
      IsCandidate p b f.length f.checksum ∧ crc16 (b.take (b.length - 2)) = f.checksum ∧
      f.payload = itemsOf ((b.drop 4).take (2 * f.length.toNat)) := by
  constructor
  · intro h
    rcases isCandidate_or_malformed p b with ⟨length, received, hc⟩ | ⟨reason, hd⟩
    · rw [hc.decodeFrame_eq] at h
      split at h
      next hcrc => cases h; exact ⟨hc, hcrc, rfl⟩
      next => cases h
    · rw [hd] at h; cases h
  · rintro ⟨hc, hcrc, hpayload⟩
    rw [hc.decodeFrame_eq, if_pos hcrc, ← hpayload]

theorem decodeFrame_eq_checksumMismatch_iff (p : Params) (b raw : List Byte) (expected received : Half) :
    decodeFrame p b = .checksumMismatch expected received raw ↔
      raw = b ∧ (∃ length, IsCandidate p b length received) ∧
      expected = crc16 (b.take (b.length - 2)) ∧ expected ≠ received := by
  constructor
  · intro h
    rcases isCandidate_or_malformed p b with ⟨length, received, hc⟩ | ⟨reason, hd⟩
    · rw [hc.decodeFrame_eq] at h
      split at h
      next => cases h
      next hcrc => cases h; exact ⟨rfl, ⟨length, hc⟩, rfl, hcrc⟩
    · rw [hd] at h; cases h
  · rintro ⟨rfl, ⟨length, hc⟩, rfl, hcrc⟩
    rw [hc.decodeFrame_eq, if_neg hcrc]

theorem decodeFrame_malformedFrame {p : Params} {b raw : List Byte} {reason : Reason}
    (h : decodeFrame p b = .malformedFrame reason raw) :
    raw = b ∧ ¬ ∃ length received, IsCandidate p b length received := by
  refine ⟨?_, fun ⟨length, received, hc⟩ => hc.not_malformed h⟩
  have hraw := eventOf_raw p b
  rwa [h] at hraw

/-- The reason of `MalformedFrame` names the first structural test that fails (41_frame_codec.md R85). -/
theorem decodeFrame_reason_iff (p : Params) (b : List Byte) :
    (decodeFrame p b = .malformedFrame .markerMissing b ↔ ¬ startsWithMarker b = true) ∧
    (decodeFrame p b = .malformedFrame .lengthInconsistent b ↔
      startsWithMarker b = true ∧
        (b.length < 4 ∨ ∃ length, readHalf b 2 = some length ∧ b.length ≠ frameLen length.toNat)) ∧
    (decodeFrame p b = .malformedFrame .lengthBounds b ↔
      startsWithMarker b = true ∧
        ∃ length, readHalf b 2 = some length ∧ b.length = frameLen length.toNat ∧ p.maxItems.val < length.toNat) := by
  rw [← readHalf_eq_none_iff b 2]
  rcases decodeFrame_branches p b with
    ⟨hs, hd⟩ | ⟨hs, hl, hd⟩ | ⟨length, hs, hl, ⟨hlen, hd⟩ | ⟨hlen, hmax, hd⟩ | ⟨received, hc⟩⟩
  · simp [hs, hd]
  · simp [hs, hl, hd]
  · simp [hs, hl, hd, hlen]
  · simp [hs, hl, hd, hlen, hmax]
  · have ⟨_, _, hlen, hmax, _⟩ := hc
    simp [hs, hl, hc.not_malformed, hlen, hmax]

/-- Settles O34: the outcomes and the reasons, branch by branch of `Decode`. -/
theorem decodeOutcomesCharacterised : Obligations.DecodeOutcomesCharacterised := by
  intro p b wellFormed
  refine ⟨decodeFrame_eq_ok_iff p b, fun expected received raw => decodeFrame_eq_checksumMismatch_iff p b raw _ _,
    fun _ _ => decodeFrame_malformedFrame, (isCandidate_or_malformed p b).resolve_left, ?_⟩
  intro marked
  have hreason := decodeFrame_reason_iff p b
  rwa [startsWithMarker_iff_getElem?] at hreason

end Sys2Proof.Machine
end

section
/-! PROOFS. The marker search (spec 42_reassembler.md R96, R106). -/

namespace Sys2Proof.Machine

/-- The marker stands at position `i` of `b` (42_reassembler.md R96). -/
def MarkerAt (b : List Byte) (i : Nat) : Prop := b[i]? = some 0xBE#8 ∧ b[i + 1]? = some 0xEF#8

@[simp] theorem markerAt_nil (i : Nat) : ¬ MarkerAt [] i := by simp [MarkerAt]

/-- Position i + 1 of a sequence is position i of the sequence without its first byte. -/
@[simp] theorem markerAt_cons_succ (b0 : Byte) (bs : List Byte) (i : Nat) :
    MarkerAt (b0 :: bs) (i + 1) ↔ MarkerAt bs i := Iff.rfl

/-- The search looks at the first position and goes on behind it. -/
theorem findMarker_cons_of_markerAt {b0 : Byte} {bs : List Byte} (h : MarkerAt (b0 :: bs) 0) :
    findMarker (b0 :: bs) = some 0 :=
  findMarker_of_startsWithMarker ((startsWithMarker_iff_getElem? _).mpr h)

theorem findMarker_cons_of_not_markerAt {b0 : Byte} {bs : List Byte} (h : ¬ MarkerAt (b0 :: bs) 0) :
    findMarker (b0 :: bs) = (findMarker bs).map (· + 1) := by
  cases bs with
  | nil => rfl
  | cons b1 bs => rw [findMarker_two, if_neg (by simpa [MarkerAt, marker0, marker1] using h)]

/-- The search answers none exactly when the marker stands nowhere (42_reassembler.md R96). -/
theorem findMarker_eq_none_iff (b : List Byte) : findMarker b = none ↔ ∀ j, ¬ MarkerAt b j := by
  induction b with
  | nil => simp
  | cons b0 bs ih =>
    rw [← Nat.and_forall_add_one (p := fun j => ¬ MarkerAt (b0 :: bs) j)]
    by_cases h0 : MarkerAt (b0 :: bs) 0
    · simp [findMarker_cons_of_markerAt h0, h0]
    · simp [findMarker_cons_of_not_markerAt h0, h0, ih]

/-- The search answers the least position of the marker (42_reassembler.md R96). -/
theorem findMarker_eq_some_iff (b : List Byte) (i : Nat) :
    findMarker b = some i ↔ MarkerAt b i ∧ ∀ j, j < i → ¬ MarkerAt b j := by
  induction b generalizing i with
  | nil => simp
  | cons b0 bs ih =>
    by_cases h0 : MarkerAt (b0 :: bs) 0
    · rw [findMarker_cons_of_markerAt h0]
      constructor
      · rintro ⟨⟩
        exact ⟨h0, fun _ hj => absurd hj (Nat.not_lt_zero _)⟩
      · rintro ⟨-, hleast⟩
        rw [Nat.eq_zero_of_not_pos fun hpos => hleast 0 hpos h0]
    · rw [findMarker_cons_of_not_markerAt h0]
      cases i with
      | zero => simp [h0]
      | succ i =>
        simp only [Option.map_eq_some_iff, Nat.add_right_cancel_iff, exists_eq_right, ih, markerAt_cons_succ]
        refine and_congr_right fun _ => ⟨fun h j hj => ?_, fun h j hj => h (j + 1) (Nat.succ_lt_succ hj)⟩
        cases j with
        | zero => exact h0
        | succ j => exact h j (Nat.lt_of_succ_lt_succ hj)

/-- One more byte adds a marker only where it completes one at the end. -/
theorem markerAt_concat (b : List Byte) (d : Byte) (j : Nat) :
    MarkerAt (b ++ [d]) j ↔ MarkerAt b j ∨ (j + 1 = b.length ∧ b.getLast? = some 0xBE#8 ∧ d = 0xEF#8) := by
  have hlast : b.getLast? = b[b.length - 1]? := List.getLast?_eq_getElem?
  rcases Nat.lt_trichotomy (j + 1) b.length with h | h | h
  · have hne : j + 1 ≠ b.length := by omega
    simp [MarkerAt, List.getElem?_append_left, h, show j < b.length by omega, hne]
  · simp [MarkerAt, hlast, ← h]
  · have hne : j + 1 ≠ b.length := by omega
    have hout : (b ++ [d])[j + 1]? = none := List.getElem?_eq_none (by simp; omega)
    have hout' : b[j + 1]? = none := List.getElem?_eq_none (by omega)
    simp [MarkerAt, hout, hout', hne]

/-- A marker found after one more byte ends with that byte (42_reassembler.md R96). -/
theorem findMarker_concat {b : List Byte} (h : findMarker b = none) (d : Byte) :
    findMarker (b ++ [d]) = if b.getLast? = some 0xBE#8 ∧ d = 0xEF#8 then some (b.length - 1) else none := by
  have hnone := (findMarker_eq_none_iff b).mp h
  split
  next hd =>
    have hpos : b.length ≠ 0 := by
      rintro h0
      simp [List.length_eq_zero_iff.mp h0] at hd
    refine (findMarker_eq_some_iff _ _).mpr ⟨(markerAt_concat b d _).mpr (.inr ⟨by omega, hd⟩), fun j hj hm => ?_⟩
    rcases (markerAt_concat b d j).mp hm with hm | ⟨hlen, -⟩
    · exact hnone j hm
    · omega
  next hd =>
    refine (findMarker_eq_none_iff _).mpr fun j hm => ?_
    rcases (markerAt_concat b d j).mp hm with hm | ⟨-, hm⟩
    · exact hnone j hm
    · exact hd hm

/-- Settles O38: the search answers the first position with the marker, and further bytes only add positions behind. -/
theorem findMarkerIsLeastOccurrence : Obligations.FindMarkerIsLeastOccurrence :=
  ⟨fun b => ⟨findMarker_eq_some_iff b, findMarker_eq_none_iff b⟩, fun _ c _ h => findMarker_append h c,
    fun _ d h => findMarker_concat h d⟩

/-- A search that skips positions known to hold no marker finds the same (42_reassembler.md R106). -/
theorem findMarkerFrom_eq_findMarker {b : List Byte} {k : Nat} (h : findMarker (b.take (k + 1)) = none) :
    findMarkerFrom k b = findMarker b := by
  induction k generalizing b with
  | zero => simp [findMarkerFrom]
  | succ k ih =>
    cases b with
    | nil => rfl
    | cons b0 bs =>
      rw [List.take_succ_cons] at h
      have h0 : ¬ MarkerAt (b0 :: bs.take (k + 1)) 0 := (findMarker_eq_none_iff _).mp h 0
      rw [findMarker_cons_of_not_markerAt h0, Option.map_eq_none_iff] at h
      have h0' : ¬ MarkerAt (b0 :: bs) 0 := by simpa [MarkerAt] using h0
      rw [findMarker_cons_of_not_markerAt h0', ← ih h]
      simp [findMarkerFrom, Function.comp_def, Nat.add_assoc]

/-- Settles O39, by induction on the position of the cursor. -/
theorem rollingCursorFindsTheSameMarker : Obligations.RollingCursorFindsTheSameMarker :=
  fun _ _ h => findMarkerFrom_eq_findMarker h

end Sys2Proof.Machine
end

section
/-! PROOFS. The loop, case by case, and what one byte behind a quiescent buffer does (spec 42_reassembler.md R104 to R114). -/

namespace Sys2Proof.Machine

/-! ### The loop, case by case -/

/-- A buffer that begins with the marker and is short of its length field waits (42_reassembler.md R99). -/
theorem drain_of_header_short {p : Params} {b : List Byte} (hs : startsWithMarker b = true) (hlen : b.length < 4) :
    drain p b = ([], b) :=
  drain_of_quiescent ((quiescent_iff p b).mpr (.inr (.inl ⟨hs, (readHalf_eq_none_iff b 2).mpr hlen⟩)))

/-- A candidate that is not complete waits (42_reassembler.md R101, R102). -/
theorem drain_of_payload_short {p : Params} {b : List Byte} {length : Half} (hs : startsWithMarker b = true)
    (hl : readHalf b 2 = some length) (hmax : length.toNat ≤ p.maxItems.val) (hlen : b.length < frameLen length.toNat) :
    drain p b = ([], b) :=
  drain_of_quiescent ((quiescent_iff p b).mpr (.inr (.inr ⟨hs, length, hl, hmax, hlen⟩)))

/-- A length field above `MAX_ITEMS` is reported with its header (42_reassembler.md R100). -/
theorem drain_of_length_above {p : Params} {b : List Byte} {length : Half} (hs : startsWithMarker b = true)
    (hl : readHalf b 2 = some length) (hmax : p.maxItems.val < length.toNat) :
    drain p b = (.malformedFrame .lengthBounds (b.take 4) :: (drain p (b.drop 4)).1, (drain p (b.drop 4)).2) := by
  have hturn : drainTurn p b = .again [.malformedFrame .lengthBounds (b.take 4)] (b.drop 4) := by
    simp [drainTurn_of_startsWithMarker hs, frameTurn, hl, hmax]
  rw [drain_of_again hturn, List.singleton_append]

/-- A complete candidate is decoded and reported (42_reassembler.md R103). -/
theorem drain_of_complete {p : Params} {b : List Byte} {length : Half} (hs : startsWithMarker b = true)
    (hl : readHalf b 2 = some length) (hmax : length.toNat ≤ p.maxItems.val) (hlen : frameLen length.toNat ≤ b.length) :
    drain p b = (eventOf (decodeFrame p (b.take (frameLen length.toNat))) (b.take (frameLen length.toNat)) ::
      (drain p (b.drop (frameLen length.toNat))).1, (drain p (b.drop (frameLen length.toNat))).2) := by
  have hturn : drainTurn p b =
      .again [eventOf (decodeFrame p (b.take (frameLen length.toNat))) (b.take (frameLen length.toNat))]
        (b.drop (frameLen length.toNat)) := by
    simp [drainTurn_of_startsWithMarker hs, frameTurn, hl, Nat.not_lt.mpr hmax, Nat.not_lt.mpr hlen]
  rw [drain_of_again hturn, List.singleton_append]

theorem drain_of_findMarker_none {p : Params} {b : List Byte} (h : findMarker b = none) : drain p b = ([], b) :=
  drain_of_quiescent ((quiescent_iff p b).mpr (.inl h))

/-- Settles O40: the noise is reported first, and then the buffer begins with the marker. -/
theorem drainFollowsTheLoop : Obligations.DrainFollowsTheLoop := by
  intro p b
  refine ⟨drain_of_findMarker_none, fun idx hm => ?_⟩
  intro ev c
  have hdrain : drain p b = (ev ++ (drain p c).1, (drain p c).2) := drain_of_findMarker hm
  have hs : startsWithMarker c = true := (findMarker_eq_some_spec hm).1
  refine ⟨fun hlen => ?_, fun length hl => ?_⟩
  · rw [hdrain, drain_of_header_short hs hlen, List.append_nil]
  · intro total
    refine ⟨fun hmax => ?_, fun hmax hlen => ?_, fun hmax hlen => ?_⟩
    · rw [hdrain, drain_of_length_above hs hl hmax]
    · rw [hdrain, drain_of_payload_short hs hl hmax hlen, List.append_nil]
    · rw [hdrain, drain_of_complete hs hl hmax hlen]
      rfl

/-- Settles O41: a turn that continues drops a header at least, so a quarter of the buffer bounds the turns. -/
theorem drainTurnsAreBounded : Obligations.DrainTurnsAreBounded :=
  ⟨fun _ _ _ _ => drainTurn_again_length, fun _ _ _ hn => drainFuel_eq_of_lt (by omega) (by omega)⟩

/-- Settles O42: the loop returns only on a quiescent buffer, and on such a buffer at once. -/
theorem drainLeavesAQuiescentBuffer : Obligations.DrainLeavesAQuiescentBuffer :=
  fun p b => ⟨(drain_sound p b).2.2, drain_of_quiescent⟩

/-- Settles O44: draining early and going on with what is left changes nothing. -/
theorem chunkSizeInvariance : Obligations.ChunkSizeInvariance := by
  intro p b c1 c2 r1 r2 v1 v2 h1 h2
  rw [drain_append, h1, h2]

/-! ### One byte behind a quiescent buffer -/

theorem startsWithMarker_append {b : List Byte} (h : startsWithMarker b = true) (c : List Byte) :
    startsWithMarker (b ++ c) = true := by
  obtain ⟨t, rfl⟩ := (startsWithMarker_iff b).mp h
  rfl

/-- A byte that completes the marker behind noise: the noise is reported, the marker held (42_reassembler.md R107). -/
theorem drain_concat_of_marker {p : Params} {b : List Byte} (hm : findMarker b = none)
    (hlast : b.getLast? = some 0xBE#8) :
    drain p (b ++ [0xEF#8]) = (noiseEvents (b.length - 1) b, [0xBE#8, 0xEF#8]) := by
  obtain ⟨noise, rfl⟩ := List.getLast?_eq_some_iff.mp hlast
  have hfound : findMarker (noise ++ [0xBE#8] ++ [0xEF#8]) = some noise.length := by
    rw [findMarker_concat hm, if_pos ⟨hlast, rfl⟩]
    simp
  have hrest : (noise ++ [0xBE#8] ++ [0xEF#8]).drop noise.length = [0xBE#8, 0xEF#8] := by simp
  rw [drain_of_findMarker hfound, hrest, drain_of_header_short rfl (by decide),
    noiseEvents_append (by simp), List.append_nil]
  simp

/-- A byte that completes no marker behind noise is held (42_reassembler.md R107). -/
theorem drain_concat_of_no_marker {p : Params} {b : List Byte} {d : Byte} (hm : findMarker b = none)
    (hd : ¬ (b.getLast? = some 0xBE#8 ∧ d = 0xEF#8)) : drain p (b ++ [d]) = ([], b ++ [d]) :=
  drain_of_findMarker_none (by rw [findMarker_concat hm, if_neg hd])

/-- The second byte of a length field completes it (42_reassembler.md R99). -/
theorem readHalf_concat {b : List Byte} {hi : Byte} (hlen : b.length = 3) (hhi : b[2]? = some hi) (d : Byte) :
    readHalf (b ++ [d]) 2 = some (BE16 hi d) := by
  refine (readHalf_eq_some_iff _ _ _).mpr ⟨hi, d, ?_, ?_, rfl⟩
  · rw [List.getElem?_append_left (by omega), hhi]
  · simp [← hlen]

/-- A length field above `MAX_ITEMS` is reported with its header as soon as it is complete (42_reassembler.md R107). -/
theorem drain_concat_of_length_above {p : Params} {b : List Byte} {hi d : Byte} (hs : startsWithMarker b = true)
    (hlen : b.length = 3) (hhi : b[2]? = some hi) (hmax : p.maxItems.val < (BE16 hi d).toNat) :
    drain p (b ++ [d]) = ([.malformedFrame .lengthBounds (b ++ [d])], []) := by
  have h4 : (b ++ [d]).length = 4 := by simp [hlen]
  rw [drain_of_length_above (startsWithMarker_append hs [d]) (readHalf_concat hlen hhi d) hmax, ← h4, List.take_length,
    List.drop_length, drain_of_quiescent (quiescent_nil p)]

/-- A length field within `MAX_ITEMS` starts a candidate, and no candidate is only a header (42_reassembler.md R107). -/
theorem drain_concat_of_length_within {p : Params} {b : List Byte} {hi d : Byte} (hs : startsWithMarker b = true)
    (hlen : b.length = 3) (hhi : b[2]? = some hi) (hmax : (BE16 hi d).toNat ≤ p.maxItems.val) :
    drain p (b ++ [d]) = ([], b ++ [d]) :=
  drain_of_payload_short (startsWithMarker_append hs [d]) (readHalf_concat hlen hhi d) hmax
    (by rw [List.length_append, hlen, frameLen, List.length_singleton]; omega)

/-- A complete candidate with nothing behind it is reported and leaves nothing (42_reassembler.md R103). -/
theorem drain_of_candidate {p : Params} {b : List Byte} {length : Half} (hs : startsWithMarker b = true)
    (hl : readHalf b 2 = some length) (hmax : length.toNat ≤ p.maxItems.val) (hlen : b.length = frameLen length.toNat) :
    drain p b = ([eventOf (decodeFrame p b) b], []) := by
  rw [drain_of_complete hs hl hmax hlen.ge, ← hlen, List.take_length, List.drop_length,
    drain_of_quiescent (quiescent_nil p)]

/-- One byte behind a quiescent buffer: it is held, or it completes a marker, a length field above `MAX_ITEMS` or a
candidate, which makes one report at most (42_reassembler.md R107, R113). -/
theorem drain_concat_length_le_one {p : Params} {b : List Byte} (hq : quiescent p b = true) (d : Byte) :
    (drain p (b ++ [d])).1.length ≤ 1 := by
  rcases (quiescent_iff p b).mp hq with hm | ⟨hs, hl⟩ | ⟨hs, length, hl, hmax, hlt⟩
  · by_cases hd : b.getLast? = some 0xBE#8 ∧ d = 0xEF#8
    · obtain ⟨hlast, rfl⟩ := hd
      rw [drain_concat_of_marker hm hlast, noiseEvents]
      split <;> simp
    · simp [drain_concat_of_no_marker hm hd]
  · have hlen := (readHalf_eq_none_iff b 2).mp hl
    by_cases h3 : b.length = 3
    · have hhi : b[2]? = some b[2] := List.getElem?_eq_getElem _
      rcases Nat.lt_or_ge p.maxItems.val (BE16 b[2] d).toNat with hmax | hmax
      · simp [drain_concat_of_length_above hs h3 hhi hmax]
      · simp [drain_concat_of_length_within hs h3 hhi hmax]
    · have hshort : (b ++ [d]).length < 4 := by simp; omega
      simp [drain_of_header_short (startsWithMarker_append hs [d]) hshort]
  · have hs' := startsWithMarker_append hs [d]
    have hl' := readHalf_append b [d] 2 length hl
    rcases Nat.lt_or_ge (b ++ [d]).length (frameLen length.toNat) with hshort | hfull
    · simp [drain_of_payload_short hs' hl' hmax hshort]
    · rw [drain_of_candidate hs' hl' hmax (by simp at hfull ⊢; omega)]
      simp

/-- FEED to a running reassembler with room, by what the loop answers (42_reassembler.md R109). -/
theorem exec_feed_of_drain {s : State} {d : Byte} {ev : List Event} {b : List Byte} (hrun : stopped s.status = false)
    (hroom : s.params.cap ≠ .bounded s.buf.length) (h : drain s.params (s.buf ++ [d]) = (ev, b)) :
    exec (.feed d) s = .next { s with buf := b, out := s.out ++ ev } := by
  rw [exec_eq_next, execState_feed_of_accepted hrun hroom, fedState, memAppend, h]
  rfl

theorem phaseOf_of_findMarker_none {p : Params} {b : List Byte} (h : findMarker b = none) :
    phaseOf p b = .seekSync := by
  simp [phaseOf, h]

theorem phaseOf_of_header_short {p : Params} {b : List Byte} (hs : startsWithMarker b = true) (hlen : b.length < 4) :
    phaseOf p b = .awaitLength := by
  simp [phaseOf, findMarker_of_startsWithMarker hs, (readHalf_eq_none_iff b 2).mpr hlen]

theorem phaseOf_of_payload_short {p : Params} {b : List Byte} {length : Half} (hs : startsWithMarker b = true)
    (hl : readHalf b 2 = some length) (hmax : length.toNat ≤ p.maxItems.val) (hlen : b.length < frameLen length.toNat) :
    phaseOf p b = .awaitPayload := by
  simp [phaseOf, findMarker_of_startsWithMarker hs, hl, Nat.not_lt.mpr hmax, hlen]

theorem startsWithMarker_length {b : List Byte} (h : startsWithMarker b = true) : 2 ≤ b.length := by
  obtain ⟨t, rfl⟩ := (startsWithMarker_iff b).mp h
  simp

/-- Settles O43: the phase of a quiescent buffer says what it holds, and each row is one case of the loop. -/
theorem feedFollowsTheTransitionTable : Obligations.FeedFollowsTheTransitionTable := by
  intro s d hrun hroom hq b n becomes
  have row {ev : List Event} {b' : List Byte} {ph : Phase} (hdrain : drain s.params (b ++ [d]) = (ev, b'))
      (hph : phaseOf s.params b' = ph) : becomes ev b' ph := ⟨exec_feed_of_drain hrun hroom hdrain, hph⟩
  rcases phaseOfAQuiescentBuffer s.params b hq with ⟨hph, hm⟩ | ⟨hph, hs, hlen⟩ | ⟨hph, hs, length, hl, hmax, hlt⟩ <;>
    rw [hph]
  · refine ⟨fun _ => ⟨?first, ?marker, fun hd => ?noise⟩, nofun, nofun, nofun⟩
    case first =>
      rintro hlast rfl hn
      refine row ?_ rfl
      rw [drain_concat_of_marker hm hlast, show b.length = 1 from hn]
      rfl
    case marker =>
      rintro hlast rfl hn
      refine row ?_ rfl
      rw [drain_concat_of_marker hm hlast, noiseEvents, if_pos (Nat.sub_pos_of_lt hn)]
    case noise =>
      exact row (drain_concat_of_no_marker hm hd) (phaseOf_of_findMarker_none (by rw [findMarker_concat hm, if_neg hd]))
  · have hs' := startsWithMarker_append hs [d]
    refine ⟨nofun, fun _ => ⟨fun hn => ?second, fun hi hn hhi hmax => ?within, fun hi hn hhi hmax => ?above, ?_⟩, nofun,
      nofun⟩
    case second =>
      have hshort : (b ++ [d]).length < 4 := by rw [List.length_append, show b.length = 2 from hn]; exact Nat.lt_succ_self 3
      exact row (drain_of_header_short hs' hshort) (phaseOf_of_header_short hs' hshort)
    case within =>
      refine row (drain_concat_of_length_within hs hn hhi hmax)
        (phaseOf_of_payload_short hs' (readHalf_concat hn hhi d) hmax ?_)
      rw [List.length_append, show b.length = 3 from hn, frameLen, List.length_singleton]
      omega
    case above => exact row (drain_concat_of_length_above hs hn hhi hmax) rfl
    · have := startsWithMarker_length hs
      show b.length = 2 ∨ b.length = 3
      omega
  · have hs' := startsWithMarker_append hs [d]
    have hl' := readHalf_append b [d] 2 length hl
    have hsucc : (b ++ [d]).length = b.length + 1 := List.length_append
    refine ⟨nofun, nofun, fun _ => ⟨length, hl, fun hn => ?short, fun hn => ?complete, Nat.succ_le_of_lt hlt⟩, nofun⟩
    case short =>
      exact row (drain_of_payload_short hs' hl' hmax (hsucc ▸ hn)) (phaseOf_of_payload_short hs' hl' hmax (hsucc ▸ hn))
    case complete => exact row (drain_of_candidate hs' hl' hmax (hsucc.trans hn)) rfl

/-- Settles O25: a byte behind a quiescent buffer makes one report at most, and so does the end of a stream. -/
theorem oneCommandEmitsAtMostOneEvent : Obligations.OneCommandEmitsAtMostOneEvent := by
  intro s t w hinv h
  rcases acceptWord_cases w s with ⟨i, hd, ha⟩ | ⟨r, hd, ha⟩ <;> rw [ha, Host.Outcome.next.injEq] at h <;> subst h
  swap
  · exact ⟨[], by simp⟩
  cases i with
  | feed d =>
    rcases execState_feed_cases d s with ⟨-, he⟩ | ⟨-, -, he⟩ | ⟨-, -, he⟩ <;> rw [he]
    · exact ⟨[], by simp⟩
    · exact ⟨[.bufferOverflow], rfl, le_rfl, fun _ => .inr ⟨d, hd⟩⟩
    · exact ⟨_, rfl, drain_concat_length_le_one hinv.bufferQuiescent d, fun _ => .inr ⟨d, hd⟩⟩
  | finish =>
    rcases execState_finish_cases s with ⟨-, he⟩ | ⟨-, he⟩ <;> rw [he]
    · exact ⟨[], by simp⟩
    · refine ⟨residueEvents s.buf, rfl, ?_, fun _ => .inl hd⟩
      unfold residueEvents
      split_ifs <;> simp
  | nop => exact ⟨[], by simp [execState]⟩
  | reset => exact ⟨[], by simp [execState]⟩
  | crcInit => exact ⟨[], by simp [execState]⟩
  | crcByte d => exact ⟨[], by simp [execState]⟩

end Sys2Proof.Machine
end

section
/-! PROOFS. The commands FEED and FINISH as their pseudocode says (spec 42_reassembler.md R108 to R110). -/

namespace Sys2Proof.Machine

/-- The late command (42_reassembler.md R108): `LATE` is bit 3. -/
theorem markLate_eq (s : State) : markLate s = { s with status := s.status ||| 0x08#8 } := rfl

theorem execState_feed_of_stopped {d : Byte} {s : State} (h : stopped s.status = true) :
    execState (.feed d) s = markLate s := if_pos h

/-- The fatal report (60_exceptions.md R142): FEED on a full buffer of a running reassembler. -/
theorem execState_feed_of_full {d : Byte} {s : State} (hrun : stopped s.status = false)
    (hfull : s.params.cap = .bounded s.buf.length) : execState (.feed d) s = raiseOverflow s := by
  rw [execState, if_neg (by simp [hrun]), if_pos ((bufferFull_iff s).mpr hfull)]

/-- Settles O14: both commands on a stopped reassembler are the late command. -/
theorem lateCommandsOnlySetLate : Obligations.LateCommandsOnlySetLate := by
  intro s d h
  have hstop : stopped s.status = true := (stopped_eq_true_iff _).mpr h
  rw [exec_eq_next, exec_eq_next, execState_feed_of_stopped hstop, execState_finish_of_stopped hstop, markLate_eq]
  exact ⟨rfl, rfl⟩

/-- The tests of FEED in the rule's order (42_reassembler.md R109). -/
theorem exec_feed_eq (s : State) (d : Byte) :
    exec (.feed d) s =
      if getFlag .done s.status = true ∨ getFlag .ovf s.status = true then .next (markLate s)
      else if s.params.cap = .bounded s.buf.length then .next (raiseOverflow s)
      else .next (fedState d s) := by
  have hnot (hrun : stopped s.status = false) : ¬ (getFlag .done s.status = true ∨ getFlag .ovf s.status = true) := by
    rw [← stopped_eq_true_iff, hrun]
    exact Bool.false_ne_true
  rw [exec_eq_next]
  rcases execState_feed_cases d s with ⟨hstop, he⟩ | ⟨hrun, hfull, he⟩ | ⟨hrun, hroom, he⟩ <;> rw [he]
  · rw [if_pos ((stopped_eq_true_iff _).mp hstop)]
  · rw [if_neg (hnot hrun), if_pos hfull]
  · rw [if_neg (hnot hrun), if_neg hroom]

theorem crc16_frameBody_nil : crc16 (frameBody []) = 0x5B4B#16 := by
  rw [show frameBody [] = [0xBE#8, 0xEF#8, 0x00#8, 0x00#8] from rfl]
  simp [crc16, crcSpan, crcStep, crcBit, crcInitValue, crcXorOut, crcPoly]

/-- The frame of the empty payload, the example of 42_reassembler.md R109. -/
theorem frameOf_nil : frameOf [] = [0xBE#8, 0xEF#8, 0x00#8, 0x00#8, 0x5B#8, 0x4B#8] := by
  rw [frameOf, crc16_frameBody_nil]
  rfl

theorem decodedReport_nil (raw : List Byte) : decodedReport [] raw = .frameDecoded 0x0000#16 [] 0x5B4B#16 raw := by
  rw [decodedReport, crc16_frameBody_nil]
  rfl

/-- Settles O13: the three branches of FEED, and the empty frame, which every `MAX_ITEMS` admits. -/
theorem feedFollowsItsPseudocode : Obligations.FeedFollowsItsPseudocode := by
  refine ⟨fun s d => ⟨exec_feed_eq s d, acceptWord_encode (.feed d) s⟩, fun s hrun hcap hbuf => ?_⟩
  have hroom : s.params.cap ≠ .bounded s.buf.length := by rwa [hbuf]
  have hframe : s.buf ++ [0x4B#8] = frameOf [] := by rw [hbuf, frameOf_nil]; rfl
  have hdrain : drain s.params (s.buf ++ [0x4B#8]) = ([decodedReport [] (frameOf [])], []) := by
    rw [hframe, drain_frameOf (Nat.zero_le _)]
  rw [show 0x14B#12 = encode (.feed 0x4B#8) from rfl, acceptWord_encode, exec_feed_of_drain hrun hroom hdrain,
    decodedReport_nil, frameOf_nil]

theorem findMarker_ne_nil {b : List Byte} {i : Nat} (h : findMarker b = some i) : b ≠ [] := by
  rintro rfl
  cases h

/-- FINISH to a running reassembler (42_reassembler.md R110): `DONE` is bit 0. -/
theorem exec_finish_of_running {s : State} (h : stopped s.status = false) :
    exec .finish s =
      .next { s with buf := [], status := s.status ||| 0x01#8, out := s.out ++ residueEvents s.buf } := by
  rw [exec_eq_next, execState_finish_of_running h, finishedState, bufDrop, memDrop]
  simp [raiseFlag, emitAll, setFlag_done]

/-- Settles O15: FINISH on a running reassembler, by what it reports of the held bytes. -/
theorem finishReportsTheResidue : Obligations.FinishReportsTheResidue := by
  refine ⟨acceptWord_encode .finish, fun s h => (lateCommandsOnlySetLate s 0x00#8 h).2, fun s hdone hovf => ?_⟩
  have hrun : stopped s.status = false := (stopped_eq_false_iff _).mpr ⟨hdone, hovf⟩
  rw [exec_finish_of_running hrun, residueEvents]
  refine ⟨fun hb => ?empty, fun hb hm => ?noise, fun i hm => ?incomplete⟩
  case empty => rw [if_pos hb, List.append_nil, ← hb]
  case noise => rw [if_neg hb, if_pos hm]
  case incomplete => rw [if_neg (findMarker_ne_nil hm), if_neg (by simp [hm])]

end Sys2Proof.Machine
end

section
/-! PROOFS. Streams fed byte by byte: byte conservation, noise, occupancy (spec 42_reassembler.md R111 to R122). -/

namespace Sys2Proof.Machine

/-- Settles O45: draining after every byte changes nothing. -/
theorem serialFeedEqualsFeedChunk : Obligations.SerialFeedEqualsFeedChunk :=
  fun _ _ hrun hq hroom => runInstrs_feed_eq_feedChunk hrun hq hroom

/-! ### Runs in two parts -/

theorem exists_runInstrs_eq_next (is : List Instr) (s : State) : ∃ t, runInstrs is s = .next t := by
  induction is generalizing s with
  | nil => exact ⟨s, rfl⟩
  | cons i is ih => rw [runInstrs_cons]; exact ih _

/-- A run goes on from the state its first part leaves (43_control.md R127). -/
theorem runInstrs_append_of_next {is : List Instr} {s u : State} (h : runInstrs is s = .next u) (js : List Instr) :
    runInstrs (is ++ js) s = runInstrs js u := by
  induction is generalizing s with
  | nil => cases h; rfl
  | cons i is ih =>
    rw [runInstrs_cons] at h
    rw [List.cons_append, runInstrs_cons, ih h]

theorem runInstrs_map_append_of_next {c1 : List Byte} {s u : State} (h : runInstrs (c1.map .feed) s = .next u)
    (c2 : List Byte) : runInstrs ((c1 ++ c2).map .feed) s = runInstrs (c2.map .feed) u := by
  rw [List.map_append, runInstrs_append_of_next h]

/-- A stream fed to a stopped reassembler is lost (42_reassembler.md R108). -/
theorem runInstrs_feed_of_stopped {s t : State} {bytes : List Byte} (hstop : stopped s.status = true)
    (h : runInstrs (bytes.map .feed) s = .next t) :
    t.buf = s.buf ∧ t.out = s.out ∧ getFlag .ovf t.status = getFlag .ovf s.status := by
  induction bytes generalizing s with
  | nil => cases h; exact ⟨rfl, rfl, rfl⟩
  | cons d bytes ih =>
    rw [List.map_cons, runInstrs_cons, execState_feed_of_stopped hstop] at h
    have hlate : stopped (markLate s).status = true := by simpa [stopped] using hstop
    simpa using ih hlate h

/-! ### Byte conservation -/

/-- The raw bytes of a list of reports, in order (30_encoding.md R57). -/
def rawBytes (ev : List Event) : List Byte := (ev.map eventRaw).flatten

@[simp] theorem rawBytes_nil : rawBytes [] = [] := rfl

@[simp] theorem rawBytes_append (ev ev' : List Event) : rawBytes (ev ++ ev') = rawBytes ev ++ rawBytes ev' := by
  simp [rawBytes]

@[simp] theorem rawBytes_singleton (e : Event) : rawBytes [e] = eventRaw e := by
  simp [rawBytes]

/-- The events a turn of the loop emits. -/
def Turn.events : Turn → List Event
  | .stop ev _ => ev
  | .again ev _ => ev

/-- A turn reports exactly the bytes it drops (42_reassembler.md R115). -/
theorem drainTurn_conserves (p : Params) (b : List Byte) :
    rawBytes (drainTurn p b).events ++ (drainTurn p b).held = b := by
  have hnoise (idx : Nat) : rawBytes (noiseEvents idx b) = b.take idx := noiseEvents_raw idx b
  rcases drainTurn_cases p b with ⟨-, ht⟩ | ⟨idx, -, ⟨-, ht⟩ | ⟨length, -, ⟨-, ht⟩ | ⟨-, -, ht⟩ | ⟨-, -, ht⟩⟩⟩ <;>
    rw [ht, Turn.events, Turn.held]
  · rfl
  · rw [hnoise, List.take_append_drop]
  · rw [rawBytes_append, hnoise, rawBytes_singleton, eventRaw, List.append_assoc, List.take_append_drop,
      List.take_append_drop]
  · rw [hnoise, List.take_append_drop]
  · rw [rawBytes_append, hnoise, rawBytes_singleton, eventOf_raw, List.append_assoc, List.take_append_drop,
      List.take_append_drop]

/-- The loop reports exactly the bytes it drops (42_reassembler.md R115). -/
theorem drain_conserves (p : Params) (b : List Byte) : rawBytes (drain p b).1 ++ (drain p b).2 = b := by
  induction hn : b.length using Nat.strong_induction_on generalizing b with
  | _ n ih =>
    have hturn := drainTurn_conserves p b
    cases ht : drainTurn p b <;> rw [ht, Turn.events, Turn.held] at hturn
    case stop ev b' => rwa [drain_of_stop ht]
    case again ev b' =>
      have hlen := drainTurn_again_length ht
      rw [drain_of_again ht, rawBytes_append, List.append_assoc, ih b'.length (by omega) b' rfl, hturn]

/-- Bytes fed without overflow are reported or held, and the reassembler goes on running (42_reassembler.md R115). -/
theorem runInstrs_feed_conserves {s t : State} {bytes : List Byte} (hrun : stopped s.status = false)
    (h : runInstrs (bytes.map .feed) s = .next t) (hovf : getFlag .ovf t.status = false) :
    stopped t.status = false ∧ ∃ ev, t.out = s.out ++ ev ∧ rawBytes ev ++ t.buf = s.buf ++ bytes := by
  induction bytes generalizing s with
  | nil => cases h; exact ⟨hrun, [], by simp⟩
  | cons d bytes ih =>
    rw [List.map_cons, runInstrs_cons] at h
    by_cases hroom : s.params.cap = .bounded s.buf.length
    · rw [execState_feed_of_full hrun hroom] at h
      have hlost := (runInstrs_feed_of_stopped (by simp [stopped]) h).2.2
      simp [hovf] at hlost
    · rw [execState_feed_of_accepted hrun hroom] at h
      obtain ⟨hrun', ev, hout, hraw⟩ := ih (s := fedState d s) hrun h
      refine ⟨hrun', (drain s.params (memAppend s.buf d)).1 ++ ev, by simp [hout], ?_⟩
      rw [rawBytes_append, List.append_assoc, hraw, ← List.append_assoc, fedState_buf, drain_conserves]
      simp [memAppend]

/-- Settles O46: every turn of the loop and the end of the stream report exactly the bytes they drop. -/
theorem everyByteIsReportedOnce : Obligations.EveryByteIsReportedOnce := by
  intro s t bytes hrun
  refine ⟨fun h hovf => (runInstrs_feed_conserves hrun h hovf).2, fun h hovf => ?_⟩
  obtain ⟨u, hu⟩ := exists_runInstrs_eq_next (bytes.map .feed) s
  rw [runInstrs_append_of_next hu, runInstrs_single] at h
  have hovf' : getFlag .ovf u.status = false := by
    by_contra hset
    have := (onlyResetClearsFlags .finish u t h).1 .ovf nofun (by simpa using hset)
    rw [hovf] at this
    cases this
  obtain ⟨hrun', ev, hout, hraw⟩ := runInstrs_feed_conserves hrun hu hovf'
  rw [exec_finish_of_running hrun', Host.Outcome.next.injEq] at h
  subst h
  refine ⟨ev ++ residueEvents u.buf, by simp [hout], ?_, rfl, by simp [← setFlag_done]⟩
  rw [← hraw]
  simp [rawBytes, residueEvents_raw]

/-! ### Noise -/

theorem findMarker_eq_none_of_append {b c : List Byte} (h : findMarker (b ++ c) = none) : findMarker b = none := by
  by_contra hb
  obtain ⟨idx, hidx⟩ := Option.ne_none_iff_exists'.mp hb
  rw [findMarker_append hidx] at h
  cases h

/-- Bytes that make no marker are held (42_reassembler.md R116). -/
theorem runInstrs_feed_noise {s : State} {bytes : List Byte} (hrun : stopped s.status = false)
    (hm : findMarker (s.buf ++ bytes) = none) (hroom : s.params.cap.admits (s.buf.length + bytes.length) = true) :
    runInstrs (bytes.map .feed) s = .next { s with buf := s.buf ++ bytes } := by
  have hq : quiescent s.params s.buf = true := (quiescent_iff _ _).mpr (.inl (findMarker_eq_none_of_append hm))
  rw [runInstrs_feed_eq_feedChunk hrun hq hroom, feedChunk, drain_of_findMarker_none hm, List.append_nil]

theorem residueEvents_of_findMarker_none {b : List Byte} (h : findMarker b = none) :
    residueEvents b = noiseReport b := by
  rw [residueEvents, if_pos h, noiseReport]

/-- A byte for a full buffer overflows it, and what comes behind is lost (60_exceptions.md R142). -/
theorem runInstrs_feed_of_full {s : State} (hrun : stopped s.status = false)
    (hfull : s.params.cap = .bounded s.buf.length) {bytes : List Byte} (hne : bytes ≠ []) :
    ∃ t, runInstrs (bytes.map .feed) s = .next t ∧ t.out = s.out ++ [.bufferOverflow] ∧ t.buf = s.buf ∧
      getFlag .ovf t.status = true := by
  obtain ⟨d, rest, rfl⟩ := List.exists_cons_of_ne_nil hne
  obtain ⟨t, ht⟩ := exists_runInstrs_eq_next ((d :: rest).map .feed) s
  have hlost := ht
  rw [List.map_cons, runInstrs_cons, execState_feed_of_full hrun hfull] at hlost
  obtain ⟨hbuf, hout, hovf⟩ := runInstrs_feed_of_stopped (by simp [stopped]) hlost
  exact ⟨t, ht, hout, hbuf, by simpa using hovf⟩

/-- Settles O47: noise is held, so it is the residue at FINISH, or it fills the buffer. -/
theorem noiseIsHeldAndReportedWhole : Obligations.NoiseIsHeldAndReportedWhole := by
  intro s bytes hrun hm
  refine ⟨fun hroom => ?held, fun c hcap hle hlt => ?overflow⟩
  case held =>
    have hfed := runInstrs_feed_noise hrun hm hroom
    refine ⟨hfed, ?_⟩
    rw [runInstrs_append_of_next hfed, runInstrs_single,
      exec_finish_of_running (s := { s with buf := s.buf ++ bytes }) hrun, residueEvents_of_findMarker_none hm]
  case overflow =>
    obtain ⟨fill, rest, rfl, hlen⟩ : ∃ fill rest, bytes = fill ++ rest ∧ fill.length = c - s.buf.length :=
      ⟨bytes.take _, bytes.drop _, (List.take_append_drop _ _).symm, List.length_take_of_le (by omega)⟩
    have hc : (s.buf ++ fill).length = c := by rw [List.length_append]; omega
    have hne : rest ≠ [] := by rintro rfl; rw [List.append_nil] at hlt; omega
    rw [← List.append_assoc] at hm ⊢
    have hfill := runInstrs_feed_noise hrun (findMarker_eq_none_of_append hm)
      (by rw [hcap, Capacity.admits, ← List.length_append, hc]; exact decide_eq_true le_rfl)
    rw [runInstrs_map_append_of_next hfill, List.take_left' hc]
    exact runInstrs_feed_of_full (s := { s with buf := s.buf ++ fill }) hrun (by rw [hcap, hc]) hne

/-! ### Streams in parts -/

/-- Fed the bytes `c` one by one, a machine like `s` that holds `b` emits `ev`, holds `b'`, and changes nothing else. -/
def FeedsTo (s : State) (b c : List Byte) (ev : List Event) (b' : List Byte) : Prop :=
  ∀ out, runInstrs (c.map .feed) { s with buf := b, out := out } = .next { s with buf := b', out := out ++ ev }

theorem FeedsTo.append {s : State} {b b' b'' c c' : List Byte} {ev ev' : List Event} (h : FeedsTo s b c ev b')
    (h' : FeedsTo s b' c' ev' b'') : FeedsTo s b (c ++ c') (ev ++ ev') b'' := by
  intro out
  rw [runInstrs_map_append_of_next (h out), h' (out ++ ev), List.append_assoc]

/-- A stream fed to `s` itself. -/
theorem FeedsTo.run {s : State} {c b : List Byte} {ev : List Event} (h : FeedsTo s [] c ev b) (hbuf : s.buf = []) :
    runInstrs (c.map .feed) s = .next { s with buf := b, out := s.out ++ ev } := by
  have hs : { s with buf := [], out := s.out } = s := by rw [← hbuf]
  have hfed := h s.out
  rwa [hs] at hfed

/-- A stream that leaves the buffer empty changes the trace only. -/
theorem FeedsTo.run_of_empty {s : State} {c : List Byte} {ev : List Event} (h : FeedsTo s [] c ev [])
    (hbuf : s.buf = []) : runInstrs (c.map .feed) s = .next { s with out := s.out ++ ev } := by
  rw [h.run hbuf, ← hbuf]

/-- With room for all of it a stream is drained at once (42_reassembler.md R111, R114). -/
theorem feedsTo_of_drain {s : State} {b c b' : List Byte} {ev : List Event} (hrun : stopped s.status = false)
    (hq : quiescent s.params b = true) (hroom : s.params.cap.admits (b.length + c.length) = true)
    (h : drain s.params (b ++ c) = (ev, b')) : FeedsTo s b c ev b' := by
  intro out
  rw [runInstrs_feed_eq_feedChunk (s := { s with buf := b, out := out }) hrun hq hroom, feedChunk, h]

theorem feedsTo_nil (s : State) (b : List Byte) : FeedsTo s b [] [] b := by
  intro out
  simp

/-- One byte needs room for itself only (42_reassembler.md R109). -/
theorem feedsTo_singleton {s : State} {b b' : List Byte} {d : Byte} {ev : List Event} (hrun : stopped s.status = false)
    (hroom : s.params.cap ≠ .bounded b.length) (h : drain s.params (b ++ [d]) = (ev, b')) : FeedsTo s b [d] ev b' := by
  intro out
  rw [List.map_singleton, runInstrs_single, exec_feed_of_drain (s := { s with buf := b, out := out }) hrun hroom h]

/-! ### Occupancy -/

/-- A stream fed byte by byte is one `FeedChunk` wherever there is room for each byte as it comes (42_reassembler.md R122). -/
theorem feedsTo_of_room_along {s : State} {b c : List Byte} (hrun : stopped s.status = false)
    (hq : quiescent s.params b = true)
    (hroom : ∀ pre, pre <+: c → s.params.cap ≠ .bounded (drain s.params (b ++ pre)).2.length) :
    FeedsTo s b c (drain s.params (b ++ c)).1 (drain s.params (b ++ c)).2 := by
  induction c using List.reverseRecOn with
  | nil =>
    rw [List.append_nil, drain_of_quiescent hq]
    exact feedsTo_nil s b
  | append_singleton c d ih =>
    have hfed := ih fun pre hpre => hroom pre (hpre.trans (List.prefix_append c [d]))
    rw [← List.append_assoc, drain_append]
    exact hfed.append (feedsTo_singleton hrun (hroom c (List.prefix_append c [d])) rfl)

theorem drain_suffix (p : Params) (b : List Byte) : (drain p b).2 <:+ b := drainFuel_suffix p _ b

/-- What is held of a stream is a run without a marker, or a candidate short of its `FrameLen` (42_reassembler.md R122). -/
theorem drain_length_le {p : Params} {bytes pre : List Byte} {m F : Nat} (hpre : pre <+: bytes)
    (hnoise : ∀ pre run post, bytes = pre ++ run ++ post → findMarker run = none → run.length ≤ m)
    (hF : candidatesWithin p bytes F) : (drain p pre).2.length ≤ m ∨ (drain p pre).2.length < F := by
  rcases (quiescent_iff _ _).mp (drain_sound p pre).2.2 with hm | ⟨hs, hl⟩ | ⟨hs, length, hl, -, hlt⟩
  · obtain ⟨reported, hsplit⟩ := drain_suffix p pre
    obtain ⟨post, rfl⟩ := hpre
    exact .inl (hnoise reported _ post (by rw [hsplit]) hm)
  · have hlen := (readHalf_eq_none_iff _ _).mp hl
    exact .inr (Nat.lt_of_lt_of_le (by omega) (hF pre hpre hs).1)
  · exact .inr (Nat.lt_of_lt_of_le hlt ((hF pre hpre hs).2 length hl))

/-- `FrameLen(MAX_ITEMS)` bounds every candidate, since a greater length field is no candidate (42_reassembler.md R100). -/
theorem candidatesWithin_frameLen (p : Params) (bytes : List Byte) :
    candidatesWithin p bytes (frameLen p.maxItems.val) := by
  intro pre _ hs
  refine ⟨by unfold frameLen; omega, fun length hl => ?_⟩
  rcases (quiescent_iff _ _).mp (drain_sound p pre).2.2 with hm | ⟨-, hnone⟩ | ⟨-, length', hl', hmax, -⟩
  · rw [findMarker_of_startsWithMarker hs] at hm; cases hm
  · rw [hl] at hnone; cases hnone
  · obtain rfl := Option.some.inj (hl.symm.trans hl')
    unfold frameLen
    omega

/-- Settles O52: what is held is short of the room at every byte. -/
theorem enoughRoomNeverOverflows : Obligations.EnoughRoomNeverOverflows := by
  refine ⟨fun s bytes m F hrun hbuf hnoise hF hcapm hcapF => ?_, candidatesWithin_frameLen⟩
  have hheld (pre : List Byte) (hpre : pre <+: bytes) := drain_length_le hpre hnoise hF
  have hfed : FeedsTo s [] bytes (drain s.params bytes).1 (drain s.params bytes).2 := by
    refine feedsTo_of_room_along hrun (quiescent_nil s.params) fun pre hpre hfull => ?_
    simp only [hfull, Capacity.admits, decide_eq_true_eq, List.nil_append] at hcapm hcapF
    have := hheld pre hpre
    omega
  refine ⟨_, hfed.run hbuf, rfl, ?_⟩
  have := hheld bytes List.prefix_rfl
  simp only
  omega

end Sys2Proof.Machine
end

section
/-! PROOFS. Streams of frames: noise between them, a truncated one, a corrupted one (spec 42_reassembler.md R117 to R121). -/

namespace Sys2Proof.Machine

/-! ### Frames behind noise -/

/-- A marker behind noise: the noise is reported, and `Drain` goes on at the marker (42_reassembler.md R98). -/
theorem drain_noise_marker {p : Params} {noise : List Byte} (hm : findMarker noise = none) :
    drain p (noise ++ marker) = (noiseReport noise, marker) := by
  have hheld : findMarker (noise ++ [0xBE#8]) = none := by
    rw [findMarker_concat hm, if_neg (by simp)]
  have hsplit : noise ++ marker = noise ++ [0xBE#8] ++ [0xEF#8] := by simp [marker, marker0, marker1]
  rw [hsplit, drain_concat_of_marker hheld List.getLast?_concat]
  cases noise <;> simp [noiseEvents, noiseReport, marker, marker0, marker1]

/-- Noise and then a frame, with room for the noise and a marker, and room for the frame (42_reassembler.md R117). -/
theorem feedsTo_noise_frame {s : State} {noise : List Byte} {p : List Half} (hrun : stopped s.status = false)
    (hm : findMarker noise = none) (hp : p.length ≤ s.params.maxItems.val)
    (hnoise : s.params.cap.admits (noise.length + 2) = true)
    (hframe : s.params.cap.admits (frameLen p.length) = true) :
    FeedsTo s [] (noise ++ frameOf p) (noiseReport noise ++ [decodedReport p (frameOf p)]) [] := by
  have hsplit : frameOf p = marker ++ (frameOf p).drop 2 := rfl
  have hlen : marker.length + ((frameOf p).drop 2).length = frameLen p.length := by
    rw [← List.length_append, ← hsplit, frameOf_length]
  have hmarker : FeedsTo s [] (noise ++ marker) (noiseReport noise) marker :=
    feedsTo_of_drain hrun (quiescent_nil _) (by simpa [marker] using hnoise) (drain_noise_marker hm)
  have hrest : FeedsTo s marker ((frameOf p).drop 2) [decodedReport p (frameOf p)] [] :=
    feedsTo_of_drain hrun ((quiescent_iff _ _).mpr (.inr (.inl ⟨rfl, rfl⟩))) (hlen ▸ hframe)
      (hsplit ▸ drain_frameOf hp)
  have hall := hmarker.append hrest
  rwa [List.append_assoc, ← hsplit] at hall

/-- Settles O48: noise and a frame leave an empty buffer, so the next noise and frame do what they did. -/
theorem framesAreRecoveredFromNoise : Obligations.FramesAreRecoveredFromNoise := by
  intro s a b fa fb n1 n2 hrun hbuf hfa hfb ha hb hm1 hm2 hn1 hn2 hca hcb
  obtain ⟨-, rfl⟩ := (encodeFrame_eq_some_iff a fa).mp hfa
  obtain ⟨-, rfl⟩ := (encodeFrame_eq_some_iff b fb).mp hfb
  have hall := (feedsTo_noise_frame hrun hm1 ha hn1 hca).append (feedsTo_noise_frame hrun hm2 hb hn2 hcb)
  rw [← List.append_assoc, ← List.append_assoc] at hall
  exact hall.run_of_empty hbuf

/-! ### A truncated frame -/

/-- A frame cut short behind its marker waits for the rest (42_reassembler.md R118). -/
theorem quiescent_take_frameOf {q : Params} {p : List Half} {n : Nat} (hp : p.length ≤ q.maxItems.val)
    (h2 : 2 ≤ n) (hn : n < (frameOf p).length) : quiescent q ((frameOf p).take n) = true := by
  have hs := startsWithMarker_take (startsWithMarker_frameOf p) h2
  refine (quiescent_iff _ _).mpr (.inr ?_)
  rcases Nat.lt_or_ge n 4 with h4 | h4
  · exact .inl ⟨hs, (readHalf_eq_none_iff _ _).mpr (by simp; omega)⟩
  · refine .inr ⟨hs, _, (readHalf_take h4).trans (readHalf_frameOf p), ?_⟩
    rw [toNat_itemCount hp, List.length_take_of_le hn.le, ← frameOf_length]
    exact ⟨hp, hn⟩

/-- A frame cut short is held, and at FINISH it is noise where its marker is incomplete (42_reassembler.md R118). -/
theorem truncated_frame_held_and_reported {q : Params} {p : List Half} {tail : List Byte}
    (hp : p.length ≤ q.maxItems.val) (htail : tail <+: frameOf p) (hlt : tail.length < (frameOf p).length) :
    quiescent q tail = true ∧ residueEvents tail =
      if tail.length = 0 then [] else if tail.length = 1 then [.noiseDiscarded tail] else [.incompleteFrame tail] := by
  match tail with
  | [] => exact ⟨rfl, rfl⟩
  | [d] => exact ⟨rfl, rfl⟩
  | d0 :: d1 :: rest =>
    have htake := List.prefix_iff_eq_take.mp htail
    have h2 : 2 ≤ (d0 :: d1 :: rest).length := Nat.le_add_left _ _
    have hs : startsWithMarker (d0 :: d1 :: rest) = true := by
      rw [htake]; exact startsWithMarker_take (startsWithMarker_frameOf p) h2
    refine ⟨by rw [htake]; exact quiescent_take_frameOf hp h2 hlt, ?_⟩
    simp [residueEvents, findMarker_of_startsWithMarker hs]

/-- A frame fed to an empty buffer with room for it is decoded and leaves an empty buffer (41_frame_codec.md R92). -/
theorem feedsTo_frameOf {s : State} {p : List Half} (hrun : stopped s.status = false)
    (hp : p.length ≤ s.params.maxItems.val) (hroom : s.params.cap.admits (frameLen p.length) = true) :
    FeedsTo s [] (frameOf p) [decodedReport p (frameOf p)] [] :=
  feedsTo_of_drain hrun (quiescent_nil _) (by simpa using hroom) (drain_frameOf hp)

/-- Settles O49: the first frame leaves an empty buffer, the tail is held, and FINISH reports it as the residue. -/
theorem truncatedTailIsReportedAtFinish : Obligations.TruncatedTailIsReportedAtFinish := by
  intro s a b fa fb tail hrun hbuf hfa hfb ha hb htail hlt hca hct
  obtain ⟨-, rfl⟩ := (encodeFrame_eq_some_iff a fa).mp hfa
  obtain ⟨-, rfl⟩ := (encodeFrame_eq_some_iff b fb).mp hfb
  obtain ⟨hq, hresidue⟩ := truncated_frame_held_and_reported hb htail hlt
  have htailFed : FeedsTo s [] tail [] tail :=
    feedsTo_of_drain hrun (quiescent_nil _) (by simpa using hct) (drain_of_quiescent hq)
  have hall := ((feedsTo_frameOf hrun ha hca).append htailFed).run hbuf
  rw [List.append_nil] at hall
  rw [runInstrs_append_of_next hall, runInstrs_single,
    exec_finish_of_running (s := { s with buf := tail, out := s.out ++ [decodedReport a (frameOf a)] }) hrun, hresidue]

/-! ### A corrupted frame, and frames one behind the other -/

/-- A candidate whose checksums differ is reported and leaves nothing (42_reassembler.md R103, R120). -/
theorem drain_of_checksumMismatch {q : Params} {b : List Byte} {expected received : Half}
    (h : decodeFrame q b = .checksumMismatch expected received b) :
    drain q b = ([.checksumMismatch expected received b], []) := by
  obtain ⟨-, ⟨length, hs, hl, hlen, hmax, -⟩, -⟩ := (decodeFrame_eq_checksumMismatch_iff _ _ _ _ _).mp h
  rw [drain_of_candidate hs hl hmax hlen, h, eventOf]

/-- Settles O50: the corrupted frame is one candidate with differing checksums, and it leaves an empty buffer. -/
theorem corruptedFrameDoesNotStopTheStream : Obligations.CorruptedFrameDoesNotStopTheStream := by
  intro s a b fa fb k x hrun hbuf hfa hfb ha hb hca hcb h4 hk hx
  obtain ⟨expected, hne, hd⟩ := oneChangedPayloadByteIsDetected s.params a fa k x ha hfa h4 hk hx
  obtain ⟨-, rfl⟩ := (encodeFrame_eq_some_iff a fa).mp hfa
  obtain ⟨-, rfl⟩ := (encodeFrame_eq_some_iff b fb).mp hfb
  have hbad : FeedsTo s [] ((frameOf a).set k x)
      [.checksumMismatch expected (crc16 (frameBody a)) ((frameOf a).set k x)] [] :=
    feedsTo_of_drain hrun (quiescent_nil _) (by simpa using hca) (drain_of_checksumMismatch hd)
  exact ⟨expected, hne, (hbad.append (feedsTo_frameOf hrun hb hcb)).run_of_empty hbuf⟩

theorem drain_frames {q : Params} {ps : List (List Half)} (h : ∀ p ∈ ps, p.length ≤ q.maxItems.val) :
    drain q (ps.flatMap frameOf) = (ps.map fun p => decodedReport p (frameOf p), []) := by
  induction ps with
  | nil => exact drain_of_quiescent (quiescent_nil q)
  | cons p ps ih =>
    obtain ⟨hp, hps⟩ := List.forall_mem_cons.mp h
    rw [List.flatMap_cons, drain_append, drain_frameOf hp, List.nil_append, ih hps]
    rfl

theorem feedsTo_frames {s : State} {ps : List (List Half)} (hrun : stopped s.status = false)
    (h : ∀ p ∈ ps, p.length ≤ s.params.maxItems.val ∧ s.params.cap.admits (frameLen p.length) = true) :
    FeedsTo s [] (ps.flatMap frameOf) (ps.map fun p => decodedReport p (frameOf p)) [] := by
  induction ps with
  | nil => exact feedsTo_nil s []
  | cons p ps ih =>
    obtain ⟨⟨hp, hroom⟩, hps⟩ := List.forall_mem_cons.mp h
    exact (feedsTo_frameOf hrun hp hroom).append (ih hps)

/-- Settles O51: each frame is decoded and leaves an empty buffer for the next. -/
theorem backToBackFramesAreEachDecoded : Obligations.BackToBackFramesAreEachDecoded :=
  ⟨fun _ _ h => drain_frames h, fun _ _ hrun hbuf h => (feedsTo_frames hrun h).run_of_empty hbuf⟩

end Sys2Proof.Machine
end

section
/-! PROOFS. The control commands, the reserved words and the step (spec 43_control.md R123 to R127, 00_scope.md R10). -/

namespace Sys2Proof.Machine

/-! ### NOP and RESET -/

/-- Settles O10: the word `0x000` is NOP's, and NOP answers the state it is given. -/
theorem nopChangesNothing : Obligations.NopChangesNothing :=
  fun s => ⟨exec_eq_next .nop s, acceptWord_encode .nop s⟩

theorem freshInstance_eq (s : State) : freshInstance s = { s with buf := [], crc := 0xFFFF#16, status := 0x00#8 } := by
  simp [freshInstance, bufDrop, memDrop]

/-- Settles O16: RESET answers a fresh instance, all of whose fields but the parameters, the inputs and the trace are
those of the reset state. -/
theorem resetStartsAFreshInstance : Obligations.ResetStartsAFreshInstance := by
  have hexec (s : State) : exec .reset s = .next { s with buf := [], crc := 0xFFFF#16, status := 0x00#8 } :=
    (exec_eq_next .reset s).trans (congrArg _ (freshInstance_eq s))
  refine ⟨fun s => ⟨hexec s, acceptWord_encode .reset s⟩, fun s t h => ?_⟩
  rw [hexec, Host.Outcome.next.injEq] at h
  subst h
  exact ⟨rfl, rfl, rfl, fun _ => rfl, rfl,
    (stopped_eq_false_iff _).mpr ⟨getFlag_zero .done, getFlag_zero .ovf⟩, getFlag_zero .ill, getFlag_zero .late⟩

/-! ### The step -/

/-- A step takes the oldest word the host offers and accepts it (43_control.md R127). -/
theorem step_of_cmd {s : State} {w : CmdWord} {rest : List HostInput} (h : s.inbox = .cmd w :: rest) :
    step s = acceptWord w { s with inbox := rest } := by
  rw [step, acceptNext, takeInput, h]
  rfl

theorem acceptWord_of_decode {w : CmdWord} {i : Instr} (h : decode w = .ok i) (s : State) :
    acceptWord w s = exec i s := by
  rw [acceptWord, h]

theorem decodeTableWord_eq_some {nbits w : Nat} {i : Instr} (h : decodeTableWord nbits w = some i) :
    ∃ v, tableWord nbits w = some v ∧ decode v = .ok i := by
  unfold decodeTableWord at h
  cases hv : tableWord nbits w with
  | none => simp [hv] at h
  | some v =>
    refine ⟨v, rfl, ?_⟩
    cases hd : decode v with
    | ok j => simpa [hv, hd] using h
    | error r => simp [hv, hd] at h

theorem withFetchWord_eq {nbits w : Nat} {v : CmdWord} (h : tableWord nbits w = some v) (s : State) :
    s.withFetchWord nbits w = offerFirst (.cmd v) s := by
  rw [State.withFetchWord, offerTableWord, h]

/-- Settles O6: the word taken is the oldest one offered, and `withFetchWord` offers its word ahead of all others. -/
theorem stepRunsTheDecodedCommand : Obligations.StepRunsTheDecodedCommand := by
  refine ⟨fun s w rest i hin hd => ?_, fun s nbits w i h => ?_⟩
  · rw [step_of_cmd hin, acceptWord_of_decode hd]
  · obtain ⟨v, hv, hd⟩ := decodeTableWord_eq_some h
    rw [withFetchWord_eq hv, step_of_cmd (offerFirst_inbox (.cmd v) s), acceptWord_of_decode hd]
    rfl

/-! ### The reserved words -/

/-- The two families of reserved words (30_encoding.md R55). -/
def ReservedFields (op : BitVec 4) (d : Byte) : Prop := 6 ≤ op.toNat ∨ (op.toNat ∈ [0, 2, 3, 4] ∧ d ≠ 0x00#8)

/-- The reserved words are those that no command has (30_encoding.md R53, R55). -/
theorem reservedFields_iff (op : BitVec 4) (d : Byte) : ReservedFields op d ↔
    ¬ (op = 1#4 ∨ op = 5#4 ∨ (d = 0#8 ∧ (op = 0#4 ∨ op = 2#4 ∨ op = 3#4 ∨ op = 4#4))) := by
  simp only [ReservedFields, List.mem_cons, List.not_mem_nil, or_false, ne_eq]
  bv_omega

/-- The decoder answers RESERVED for the words of the two families: each of its tests that answers a command is one
alternative of `reservedFields_iff` (30_encoding.md R55, R56). -/
theorem decode_eq_error_iff (w : CmdWord) : (∃ r, decode w = .error r) ↔ ReservedFields (opField w) (dField w) := by
  rw [reservedFields_iff]
  unfold decode
  dsimp only
  split_ifs <;> simp <;> tauto

/-- A word's number is 256 times its operation code, plus its operand (30_encoding.md R52). -/
theorem fields_ofNat (op : Nat) {d : Nat} (hd : d < 256) :
    opField (BitVec.ofNat 12 (op * 256 + d)) = BitVec.ofNat 4 op ∧
    dField (BitVec.ofNat 12 (op * 256 + d)) = BitVec.ofNat 8 d := by
  constructor <;> apply BitVec.eq_of_toNat_eq <;> simp [opField, dField, BitVec.extractLsb'_toNat]
  omega

/-- The decoder answers RESERVED for the word numbered `n`. -/
def reservedNumber (n : Nat) : Bool :=
  match decode (BitVec.ofNat 12 n) with
  | .error _ => true
  | .ok _ => false

theorem reservedNumber_iff {op d : Nat} (hop : op < 16) (hd : d < 256) :
    reservedNumber (op * 256 + d) = true ↔ 6 ≤ op ∨ (op ∈ [0, 2, 3, 4] ∧ d ≠ 0) := by
  have hdecode (n : Nat) : reservedNumber n = true ↔ ∃ r, decode (BitVec.ofNat 12 n) = .error r := by
    unfold reservedNumber
    cases decode (BitVec.ofNat 12 n) <;> simp
  obtain ⟨hopField, hdField⟩ := fields_ofNat op hd
  rw [hdecode, decode_eq_error_iff, hopField, hdField, ReservedFields, ne_eq, ← BitVec.toNat_inj]
  simp [Nat.mod_eq_of_lt hop, Nat.mod_eq_of_lt hd]

/-- How many operands make a reserved word with the operation code `op`: all, all but 0, or none (30_encoding.md R55). -/
def reservedOperands (op : Nat) : Nat := if 6 ≤ op then 256 else if op ∈ [0, 2, 3, 4] then 255 else 0

theorem countP_reservedNumber {op : Nat} (hop : op < 16) :
    ((List.range 256).countP fun d => reservedNumber (op * 256 + d)) = reservedOperands op := by
  have hnonzero (n : Nat) : (List.range (n + 1)).countP (fun d => decide (d ≠ 0)) = n := by
    simp [List.range_succ_eq_map, List.countP_map, Function.comp_def]
  rw [List.countP_congr (q := fun d => decide (6 ≤ op ∨ (op ∈ [0, 2, 3, 4] ∧ d ≠ 0))) fun d hd => by
    rw [reservedNumber_iff hop (List.mem_range.mp hd), decide_eq_true_iff]]
  unfold reservedOperands
  split_ifs with hop6 hplain
  · simp [hop6]
  · simpa only [hop6, hplain, false_or, true_and] using hnonzero 255
  · simp [hop6, hplain]

/-- Counting over `m * n` numbers, `n` at a time. -/
theorem countP_range_mul (p : Nat → Bool) (m n : Nat) :
    (List.range (m * n)).countP p = ((List.range m).map fun i => (List.range n).countP fun j => p (i * n + j)).sum := by
  induction m with
  | zero => simp
  | succ m ih => simp [Nat.succ_mul, List.range_add, List.range_succ (n := m), List.countP_map, ih, Function.comp_def]

/-- Settles O2: the fields decide which words are reserved, the count goes by operation codes, and the effect is the
setting of one flag. -/
theorem reservedWordsOnlySetIll : Obligations.ReservedWordsOnlySetIll := by
  refine ⟨decode_eq_error_iff, ?_, fun w r s h => ?_⟩
  · rw [← List.countP_eq_length_filter]
    calc (List.range (16 * 256)).countP reservedNumber
      _ = ((List.range 16).map reservedOperands).sum := by
          rw [countP_range_mul, List.map_congr_left fun op hop => countP_reservedNumber (List.mem_range.mp hop)]
      _ = 3580 := by decide
  · rw [acceptWord, h]
    rfl

end Sys2Proof.Machine
end

section
/-! PROOFS. The well-behaved host (spec 43_control.md R128). -/

namespace Sys2Proof.Machine

/-- What a well-behaved host at place `ph` of a stream relies on: `ILL` = 0, `DONE` only once FINISH has been sent, `LATE`
only after an overflow, and no overflow when `CAP` = `UNBOUNDED` (43_control.md R128). -/
structure HostKept (ph : HostPhase) (c : Capacity) (st : Status) : Prop where
  illZero : getFlag .ill st = false
  doneEnded : getFlag .done st = true → ph = .ended
  lateNeedsOverflow : getFlag .ovf st = false → getFlag .late st = false
  unboundedNeverOverflows : c = .unbounded → getFlag .ovf st = false

theorem hostKept_zero (ph : HostPhase) (c : Capacity) : HostKept ph c 0x00#8 := by
  constructor <;> simp

section
variable {ph : HostPhase} {c : Capacity} {st : Status}

/-- Before FINISH the reassembler is not done, so any place may follow. -/
theorem HostKept.advance (h : HostKept ph c st) (hph : ph ≠ .ended) (ph' : HostPhase) : HostKept ph' c st :=
  { h with doneEnded := fun hdone => absurd (h.doneEnded hdone) hph }

/-- Before FINISH only an overflow stops the reassembler (42_reassembler.md R108). -/
theorem HostKept.ovf_of_stopped (h : HostKept ph c st) (hph : ph ≠ .ended) (hstop : stopped st = true) :
    getFlag .ovf st = true :=
  ((stopped_eq_true_iff st).mp hstop).resolve_left fun hdone => hph (h.doneEnded hdone)

theorem HostKept.setDone (h : HostKept ph c st) : HostKept .ended c (setFlag .done st) where
  illZero := by simpa using h.illZero
  doneEnded := fun _ => rfl
  lateNeedsOverflow := by simpa using h.lateNeedsOverflow
  unboundedNeverOverflows := by simpa using h.unboundedNeverOverflows

theorem HostKept.setOvf (h : HostKept ph c st) (hc : c ≠ .unbounded) : HostKept ph c (setFlag .ovf st) where
  illZero := by simpa using h.illZero
  doneEnded := by simpa using h.doneEnded
  lateNeedsOverflow := by simp
  unboundedNeverOverflows := fun hunb => absurd hunb hc

theorem HostKept.setLate (h : HostKept ph c st) (hovf : getFlag .ovf st = true) : HostKept ph c (setFlag .late st) where
  illZero := by simpa using h.illZero
  doneEnded := by simpa using h.doneEnded
  lateNeedsOverflow := by simp [hovf]
  unboundedNeverOverflows := by simpa using h.unboundedNeverOverflows

end

/-- What the grammar of 43_control.md R128 admits: stream data and the end of stream only before FINISH has been sent,
RESET, and anywhere the commands that are no part of the stream. -/
theorem hostNext_cases {ph ph' : HostPhase} {job job' : Bool} {i : Instr} (h : hostNext ph job i = some (ph', job')) :
    ((∃ d, i = .feed d) ∧ ph ≠ .ended) ∨ (i = .finish ∧ ph ≠ .ended ∧ ph' = .ended) ∨ i = .reset ∨
    ((i = .nop ∨ i = .crcInit ∨ ∃ d, i = .crcByte d) ∧ ph' = ph) := by
  cases i with
  | crcByte d => cases ph <;> cases job <;> cases h <;> simp
  | _ => cases ph <;> cases h <;> simp

/-- A command that the grammar of 43_control.md R128 admits keeps what the host relies on. -/
theorem HostKept.execState {ph ph' : HostPhase} {job job' : Bool} {i : Instr} {s : State}
    (h : HostKept ph s.params.cap s.status) (hnext : hostNext ph job i = some (ph', job')) :
    HostKept ph' s.params.cap (execState i s).status := by
  rcases hostNext_cases hnext with ⟨⟨d, rfl⟩, hph⟩ | ⟨rfl, hph, rfl⟩ | rfl | ⟨rfl | rfl | ⟨d, rfl⟩, rfl⟩
  · have h' := h.advance hph ph'
    rcases execState_feed_cases d s with ⟨hstop, he⟩ | ⟨-, hcap, he⟩ | ⟨-, -, he⟩ <;> rw [he]
    · exact h'.setLate (h.ovf_of_stopped hph hstop)
    · exact h'.setOvf (by simp [hcap])
    · exact h'
  · rcases execState_finish_cases s with ⟨hstop, he⟩ | ⟨-, he⟩ <;> rw [he]
    · exact (h.advance hph .ended).setLate (h.ovf_of_stopped hph hstop)
    · exact h.setDone
  · exact hostKept_zero ph' _
  · exact h
  · exact h
  · exact h

/-- A well-behaved host's next word is a command's, and the grammar admits it. -/
theorem wellBehaved_cons {ph : HostPhase} {job : Bool} {w : CmdWord} {ws : List CmdWord}
    (h : wellBehaved ph job (w :: ws) = true) :
    ∃ i ph' job', decode w = .ok i ∧ hostNext ph job i = some (ph', job') ∧ wellBehaved ph' job' ws = true := by
  unfold wellBehaved at h
  cases hd : decode w with
  | error r => simp [hd] at h
  | ok i =>
    cases hn : hostNext ph job i with
    | none => simp [hd, hn] at h
    | some next => exact ⟨i, next.1, next.2, rfl, hn, by simpa [hd, hn] using h⟩

theorem runWords_cons_of_decode {w : CmdWord} {i : Instr} (h : decode w = .ok i) (ws : List CmdWord) (s : State) :
    runWords (w :: ws) s = runWords ws (execState i s) := by
  rw [runWords, acceptWord_of_decode h, exec_eq_next, thenRun]

/-- Whatever a well-behaved host sends, its flags stay as it relies on them. -/
theorem HostKept.runWords {ws : List CmdWord} {ph : HostPhase} {job : Bool} {s t : State}
    (h : HostKept ph s.params.cap s.status) (hws : wellBehaved ph job ws = true) (hrun : runWords ws s = .next t) :
    ∃ ph', HostKept ph' s.params.cap t.status := by
  induction ws generalizing ph job s with
  | nil =>
    rw [Machine.runWords, Host.Outcome.next.injEq] at hrun
    exact ⟨ph, hrun ▸ h⟩
  | cons w ws ih =>
    obtain ⟨i, ph', job', hd, hnext, hws'⟩ := wellBehaved_cons hws
    rw [runWords_cons_of_decode hd] at hrun
    have hkept := h.execState hnext
    rw [← execState_params i s] at hkept ⊢
    exact ih hkept hws' hrun

/-- Settles O58: the reset state meets what the host relies on, and every word it sends keeps that. -/
theorem wellBehavedHostIsNeverFlagged : Obligations.WellBehavedHostIsNeverFlagged := by
  intro p ws t hws hrun
  obtain ⟨ph, hill, -, hlate, hunb⟩ := HostKept.runWords (hostKept_zero .fresh p.cap) hws hrun
  exact ⟨hill, hlate, fun hp => ⟨hunb hp, hlate (hunb hp)⟩⟩

end Sys2Proof.Machine
end

section
/-! PROOFS. A stopped reassembler and the way back, an idle engine, and next states everywhere (spec 60_exceptions.md R142 to R150). -/

namespace Sys2Proof.Machine

/-! ### A stopped reassembler -/

/-- What every word but RESET leaves to a stopped reassembler (60_exceptions.md R142): the buffer, the trace and every
flag that is set. -/
structure Frozen (s t : State) : Prop where
  sameParams : t.params = s.params
  sameBuf : t.buf = s.buf
  sameOut : t.out = s.out
  flagsStay : ∀ f, getFlag f s.status = true → getFlag f t.status = true

theorem Frozen.of_same_status {s t : State} (hp : t.params = s.params) (hb : t.buf = s.buf) (hout : t.out = s.out)
    (hst : t.status = s.status) : Frozen s t :=
  ⟨hp, hb, hout, fun _ hf => hst ▸ hf⟩

theorem frozen_raiseFlag (f : Flag) (s : State) : Frozen s (raiseFlag f s) :=
  ⟨rfl, rfl, rfl, fun g hg => by simp [hg]⟩

theorem Frozen.stopped {s t : State} (h : Frozen s t) (hstop : stopped s.status = true) : stopped t.status = true :=
  (stopped_eq_true_iff _).mpr (((stopped_eq_true_iff _).mp hstop).imp (h.flagsStay .done) (h.flagsStay .ovf))

/-- To a stopped reassembler FEED and FINISH are the late command (42_reassembler.md R108); of the others only RESET
writes more than `CRC`. -/
theorem frozen_execState {i : Instr} {s : State} (hstop : stopped s.status = true) (hi : i ≠ .reset) :
    Frozen s (execState i s) := by
  cases i with
  | nop => exact .of_same_status rfl rfl rfl rfl
  | feed d => rw [execState_feed_of_stopped hstop]; exact frozen_raiseFlag .late s
  | finish => rw [execState_finish_of_stopped hstop]; exact frozen_raiseFlag .late s
  | reset => exact absurd rfl hi
  | crcInit => exact .of_same_status rfl rfl rfl rfl
  | crcByte d => exact .of_same_status rfl rfl rfl rfl

/-- `0x300` is the only word of RESET (30_encoding.md R53), and a reserved word sets `ILL` (43_control.md R125). -/
theorem frozen_acceptWord {w : CmdWord} {s t : State} (hstop : stopped s.status = true) (hw : w ≠ 0x300#12)
    (h : acceptWord w s = .next t) : Frozen s t := by
  rcases acceptWord_cases w s with ⟨i, hd, ha⟩ | ⟨r, -, ha⟩ <;> rw [ha, Host.Outcome.next.injEq] at h <;> subst h
  · refine frozen_execState hstop ?_
    rintro rfl
    exact hw (eq_encode_of_decode hd)
  · exact frozen_raiseFlag .ill s

/-- Settles O23: a set `OVF` stops the reassembler, so the word leaves it frozen, and by the invariant it holds `CAP`
bytes. -/
theorem overflowFreezesTheBuffer : Obligations.OverflowFreezesTheBuffer := by
  intro s t w hinv hovf hw h
  obtain ⟨hp, hbuf, hout, hflags⟩ := frozen_acceptWord ((stopped_eq_true_iff _).mpr (.inr hovf)) hw h
  refine ⟨hbuf, hout, hflags .ovf hovf, ?_, ?_⟩
  · rw [outputsOf, hbuf]
    exact hinv.overflowFull hovf
  · rw [outputsOf, hp, hbuf]

/-- Settles O22: an idle step and every word but RESET's leave a stopped reassembler stopped. -/
theorem onlyResetsRestartTheReassembler : Obligations.OnlyResetsRestartTheReassembler := by
  intro s t h hstop hrun
  rcases step_cases s with ⟨-, hs⟩ | ⟨rest, hin, hs⟩ | ⟨w, rest, hin, hs⟩ <;> rw [hs] at h
  · cases h
    exact absurd hstop (by simp [hrun])
  · cases h
    exact .inl ⟨rest, hin, pinReset_buf _, rfl⟩
  · obtain rfl | hw := eq_or_ne w (encode .reset)
    · rw [acceptWord_encode, exec_eq_next] at h
      cases h
      exact .inr ⟨rest, hin, freshInstance_buf _, rfl⟩
    · have hkept : Frozen { s with inbox := rest } t := frozen_acceptWord hstop hw h
      exact absurd (hkept.stopped hstop) (by simp [hrun])

/-! ### Next states -/

/-- An idle engine holds its state (60_exceptions.md R149). -/
theorem step_of_idle {s : State} (h : s.inbox = []) : step s = .next s := by
  rw [step, acceptNext, takeInput, h]

/-- Settles O7: the word is taken off the queue, and a reserved word has the effect of O2. -/
theorem stepWithoutACommand : Obligations.StepWithoutACommand :=
  ⟨fun _ => step_of_idle, fun s w rest r hin hd => by
    rw [step_of_cmd hin, reservedWordsOnlySetIll.2.2 w r _ hd]⟩

theorem exists_acceptWord_eq_next (w : CmdWord) (s : State) : ∃ t, acceptWord w s = .next t := by
  rcases acceptWord_cases w s with ⟨i, -, ha⟩ | ⟨r, -, ha⟩ <;> exact ⟨_, ha⟩

/-- Settles O9: of the things a step can do, holding the state and `rst` name their next state, and a word has one. -/
theorem everyStepHasANextState : Obligations.EveryStepHasANextState := by
  refine ⟨fun s => ?_, exists_acceptWord_eq_next⟩
  rcases step_cases s with ⟨-, hs⟩ | ⟨rest, -, hs⟩ | ⟨w, rest, -, hs⟩
  · exact ⟨_, hs⟩
  · exact ⟨_, hs⟩
  · rw [hs]
    exact exists_acceptWord_eq_next w _

end Sys2Proof.Machine
end

section
/-! PROOFS. The two resets and the outputs after them (spec 70_reset_and_hazards.md R151, 10_state.md R28, R29). -/

namespace Sys2Proof.Machine

/-- A step that finds `rst` takes it off the queue and resets the machine (70_reset_and_hazards.md R151). -/
theorem step_of_rst {s : State} {rest : List HostInput} (h : s.inbox = .rst :: rest) :
    step s = .next (pinReset { s with inbox := rest }) := by
  rw [step, acceptNext, takeInput, h]
  rfl

theorem pinReset_eq (s : State) :
    pinReset s = { s with buf := [], crc := 0xFFFF#16, status := 0x00#8, out := [] } := by
  rw [pinReset, freshInstance_eq]

/-- An empty buffer holds no marker, so its phase is `SEEK_SYNC` (10_state.md R23). -/
theorem outputsOf_of_buf_nil {s : State} (h : s.buf = []) : outputsOf s = ⟨s.crc, s.status, 0, 0#2⟩ := by
  rw [outputsOf, h, phaseOf_of_findMarker_none findMarker_nil]
  rfl

/-- Settles O8: `rst` and RESET both leave an empty buffer and `CRC` at its reset value, and these fix the outputs. -/
theorem bothResetsRestoreTheResetValues : Obligations.BothResetsRestoreTheResetValues := by
  refine ⟨fun s rest hin => (step_of_rst hin).trans (congrArg _ (pinReset_eq _)),
    fun s => (resetStartsAFreshInstance.1 s).1, fun s t h => ?_⟩
  obtain ⟨hbuf, hcrc⟩ : t.buf = [] ∧ t.crc = 0xFFFF#16 := by
    rcases h with h | ⟨⟨rest, hin⟩, h⟩
    · rw [exec_eq_next] at h
      cases h
      exact ⟨freshInstance_buf s, rfl⟩
    · rw [step_of_rst hin] at h
      cases h
      exact ⟨pinReset_buf _, rfl⟩
  rw [outputsOf_of_buf_nil hbuf]
  exact ⟨rfl, rfl, hcrc⟩

end Sys2Proof.Machine
end
